-- ==== Sys2Proof/Word.lean ====
section
/-! DEFINITION. The word types of the block: bytes, 64-bit registers, 64-bit byte addresses, 16-bit command words
(spec/00_scope.md R6, R7). -/

namespace Sys2Proof

/-- A byte of guest memory. -/
abbrev Byte := BitVec 8

/-- A general register (`XLEN = 64`, R6). -/
abbrev Reg64 := BitVec 64

/-- A resolved byte address of guest memory (`ALEN = 64`, R6, R51). -/
abbrev Addr := BitVec 64

/-- A command word (R81). -/
abbrev CmdWord := BitVec 16

end Sys2Proof
end

