-- ==== Sys2Proof/Config.lean ====
section
/-! DEFINITION. What is fixed for the machine, and the free values (spec/00_scope.md R6). The open parameters `NVP`,
`HOST_CAS8`, `HOST_CAS32`, `HOST_CAS64` and `INIT` are data of `State`, so that a statement about every state holds for
every value of them; what stands here are the values `State.reset` takes for them. -/

namespace Sys2Proof.Config

/-- `NREG = 16` general registers for each virtual processor (R6, R30). -/
def nreg : Nat := 16

/-- The number of virtual processors of `State.reset`. DESIGN CHOICE (log 3), unsafe: `NVP` is open (R6, D1). -/
def resetNvp : Nat := 2

/-- What every general register holds at `State.reset`. DESIGN CHOICE (log 1), unsafe: the spec gives no value (R44). -/
def resetReg : Reg64 := 0

/-- What an address that the memory list does not name reads as. DESIGN CHOICE (log 2), unsafe: the spec gives no reset
contents of memory (R44). -/
def blankByte : Byte := 0

/-- The free choices of the schedule: which virtual processor steps next (R12) and which byte of a plain access moves
next (R56, R244). No body: nothing can be proved of a value of it. DESIGN CHOICE (log 5), safe. -/
opaque freeChoice : Nat → Nat

end Sys2Proof.Config
end

