-- ==== Sys2Proof/Syntax.lean ====
section
/-! DEFINITION. The instructions of the block, one constructor for each row of spec/opcode_table.json, and the command
that carries one (spec/30_encoding.md R80, R84, R87). -/

namespace Sys2Proof

/-- The operation families (R112, R116). -/
inductive Family where
  | NOT | NEG | INC | DEC
deriving DecidableEq, Repr

/-- The operand widths (R6): 8, 16, 32 or 64 bits. -/
inductive Width where
  | w8 | w16 | w32 | w64
deriving DecidableEq, Repr

/-- The width in bytes, `n` of R7. -/
def Width.bytes : Width → Nat
  | .w8 => 1
  | .w16 => 2
  | .w32 => 4
  | .w64 => 8

/-- The width in bits, `W = 8 * n` of R7. -/
abbrev Width.bits (w : Width) : Nat := 8 * w.bytes

/-- The causes of `IllegalInstruction` (R202). -/
inductive IllegalCode where
  | UD_SUBOPCODE | UD_RESOLVE | UD_NO_ATOMIC | UD_RESERVED
deriving DecidableEq, Repr

/-- The number R202 gives each cause. -/
def IllegalCode.number : IllegalCode → Nat
  | .UD_SUBOPCODE => 1
  | .UD_RESOLVE => 2
  | .UD_NO_ATOMIC => 3
  | .UD_RESERVED => 4

/-- The causes of `InvariantViolation` (R204). -/
inductive ViolationCode where
  | IV_LOCK_REG | IV_LOCK_16
deriving DecidableEq, Repr

/-- The number R204 gives each cause. -/
def ViolationCode.number : ViolationCode → Nat
  | .IV_LOCK_REG => 1
  | .IV_LOCK_16 => 2

/-- The eighteen instructions (R87). `lock` and `isreg` are the operand fields `L` and `M` of the table; the ignored
fields (R83) do not change what a command does and are not kept. -/
inductive Instr where
  | not8 (lock isreg : Bool)
  | not16 (lock isreg : Bool)
  | not32 (lock isreg : Bool)
  | not64 (lock isreg : Bool)
  | neg8 (lock isreg : Bool)
  | neg16 (lock isreg : Bool)
  | neg32 (lock isreg : Bool)
  | neg64 (lock isreg : Bool)
  | inc8 (lock isreg : Bool)
  | inc16 (lock isreg : Bool)
  | inc32 (lock isreg : Bool)
  | inc64 (lock isreg : Bool)
  | dec8 (lock isreg : Bool)
  | dec16 (lock isreg : Bool)
  | dec32 (lock isreg : Bool)
  | dec64 (lock isreg : Bool)
  /-- INCDEC8 /0 of R191. -/
  | incdec8Inc (lock isreg : Bool)
  /-- INCDEC8 /1 of R192. -/
  | incdec8Dec (lock isreg : Bool)
deriving DecidableEq, Repr

/-- The operation family of an instruction, by its name in R87; the multiplexed entry's two are INC and DEC (R190). -/
def Instr.family : Instr → Family
  | .not8 _ _ | .not16 _ _ | .not32 _ _ | .not64 _ _ => .NOT
  | .neg8 _ _ | .neg16 _ _ | .neg32 _ _ | .neg64 _ _ => .NEG
  | .inc8 _ _ | .inc16 _ _ | .inc32 _ _ | .inc64 _ _ | .incdec8Inc _ _ => .INC
  | .dec8 _ _ | .dec16 _ _ | .dec32 _ _ | .dec64 _ _ | .incdec8Dec _ _ => .DEC

/-- The operand width of an instruction, by the `Width` column of R87. -/
def Instr.width : Instr → Width
  | .not8 _ _ | .neg8 _ _ | .inc8 _ _ | .dec8 _ _ | .incdec8Inc _ _ | .incdec8Dec _ _ => .w8
  | .not16 _ _ | .neg16 _ _ | .inc16 _ _ | .dec16 _ _ => .w16
  | .not32 _ _ | .neg32 _ _ | .inc32 _ _ | .dec32 _ _ => .w32
  | .not64 _ _ | .neg64 _ _ | .inc64 _ _ | .dec64 _ _ => .w64

/-- The lock intent of an instruction (R37, R82). -/
def Instr.lock : Instr → Bool
  | .not8 l _ | .not16 l _ | .not32 l _ | .not64 l _ => l
  | .neg8 l _ | .neg16 l _ | .neg32 l _ | .neg64 l _ => l
  | .inc8 l _ | .inc16 l _ | .inc32 l _ | .inc64 l _ => l
  | .dec8 l _ | .dec16 l _ | .dec32 l _ | .dec64 l _ => l
  | .incdec8Inc l _ | .incdec8Dec l _ => l

/-- The addressing mode of an instruction: true for a register-direct operand (R82). -/
def Instr.isreg : Instr → Bool
  | .not8 _ m | .not16 _ m | .not32 _ m | .not64 _ m => m
  | .neg8 _ m | .neg16 _ m | .neg32 _ m | .neg64 _ m => m
  | .inc8 _ m | .inc16 _ m | .inc32 _ m | .inc64 _ m => m
  | .dec8 _ m | .dec16 _ m | .dec32 _ m | .dec64 _ m => m
  | .incdec8Inc _ m | .incdec8Dec _ m => m

/-- The resolver's answer (R84): `res_ok` and the 64-bit `loc_ref`. -/
structure Payload where
  resOk : Bool
  locRef : BitVec 64
deriving DecidableEq, Repr

/-- One command of a virtual processor's list: the command word and the payload of R80. The third part of the triple,
the virtual processor, is the one whose list the command stands in. -/
structure Command where
  word : CmdWord
  payload : Payload
deriving DecidableEq, Repr

end Sys2Proof
end

