-- ==== Sys2Proof/WellFormed.lean ====
section
/-! DEFINITION. What the decode layer and the resolver promise the block (spec/30_encoding.md R84,
spec/70_reset_and_hazards.md R234, R235). The block checks the lock rules itself (R115, R118); the model refuses a
payload outside the resolver's contract (R84). -/

namespace Sys2Proof

/-- A lock is issued neither with a register-direct operand (R235) nor at 16-bit width (R234). -/
def Instr.lockLegal (i : Instr) : Bool :=
  !(i.lock && (i.isreg || i.width == .w16))

/-- A register payload within the limits of R31 and R84: `off = 0`, or `off = 1` at width 8, and `loc_ref[63:7] = 0`.
The register number `loc_ref[3:0]` is always below `NREG = 16`. -/
def Payload.registerOk (w : Width) (pl : Payload) : Bool :=
  let off := (pl.locRef.extractLsb' 4 3).toNat
  pl.locRef.extractLsb' 7 57 == 0 && (off == 0 || (off == 1 && w == .w8))

/-- A memory payload whose `n` bytes do not run past the top of memory (R51). -/
def Payload.memoryOk (w : Width) (pl : Payload) : Bool :=
  decide (pl.locRef.toNat + w.bytes ≤ 2 ^ 64)

/-- The payload's location is one the resolver may hand over for this instruction (R84). A payload with `res_ok = 0`
carries no location. -/
def Payload.wf (i : Instr) (pl : Payload) : Bool :=
  !pl.resOk || (if i.isreg then pl.registerOk i.width else pl.memoryOk i.width)

/-- A well-formed instruction is one a correct decode layer dispatches (R234, R235). -/
def Instr.wf (i : Instr) : Bool := i.lockLegal

end Sys2Proof
end

