-- ==== Sys2Proof/Decode.lean ====
section
/-! DEFINITION. The decoder, total on command words, and the encoder (spec/30_encoding.md R81 to R92,
spec/40_dispatch_and_sequencer.md R111 to R115, spec/45_incdec_mux.md R190). -/

namespace Sys2Proof

/-- The fields of a command word (R81). -/
structure CmdFields where
  zero : BitVec 5
  entry : BitVec 3
  wide : Bool
  rexw : Bool
  osz : Bool
  lock : Bool
  isreg : Bool
  reg : BitVec 3
deriving DecidableEq, Repr

/-- The places of the fields in the word (R81). -/
def cmdFields (w : CmdWord) : CmdFields where
  zero := w.extractLsb' 11 5
  entry := w.extractLsb' 8 3
  wide := w.getLsbD 7
  rexw := w.getLsbD 6
  osz := w.getLsbD 5
  lock := w.getLsbD 4
  isreg := w.getLsbD 3
  reg := w.extractLsb' 0 3

/-- Width selection: the byte dispatcher's width (R113), or the word dispatcher's by its priority (R114). -/
def selectWidth (wide rexw osz : Bool) : Width :=
  if !wide then .w8
  else if rexw then .w64
  else if osz then .w16
  else .w32

/-- The instruction of a direct entry's family at a width (R87). -/
def instrOf (f : Family) (w : Width) (lock isreg : Bool) : Instr :=
  match f, w with
  | .NOT, .w8 => .not8 lock isreg
  | .NOT, .w16 => .not16 lock isreg
  | .NOT, .w32 => .not32 lock isreg
  | .NOT, .w64 => .not64 lock isreg
  | .NEG, .w8 => .neg8 lock isreg
  | .NEG, .w16 => .neg16 lock isreg
  | .NEG, .w32 => .neg32 lock isreg
  | .NEG, .w64 => .neg64 lock isreg
  | .INC, .w8 => .inc8 lock isreg
  | .INC, .w16 => .inc16 lock isreg
  | .INC, .w32 => .inc32 lock isreg
  | .INC, .w64 => .inc64 lock isreg
  | .DEC, .w8 => .dec8 lock isreg
  | .DEC, .w16 => .dec16 lock isreg
  | .DEC, .w32 => .dec32 lock isreg
  | .DEC, .w64 => .dec64 lock isreg

/-- The instruction the fields select (R82, R111), or the code of the trap a reserved encoding raises (R89). -/
def decodeFields (f : CmdFields) : Except IllegalCode Instr :=
  if f.zero ≠ 0 ∨ 5 ≤ f.entry.toNat then .error .UD_RESERVED
  else if f.entry = 4 then
    if f.wide then .error .UD_RESERVED
    else if f.reg = 0 then .ok (.incdec8Inc f.lock f.isreg)
    else if f.reg = 1 then .ok (.incdec8Dec f.lock f.isreg)
    else .error .UD_SUBOPCODE
  else
    let w := selectWidth f.wide f.rexw f.osz
    if f.entry = 0 then .ok (instrOf .NOT w f.lock f.isreg)
    else if f.entry = 1 then .ok (instrOf .NEG w f.lock f.isreg)
    else if f.entry = 2 then .ok (instrOf .INC w f.lock f.isreg)
    else .ok (instrOf .DEC w f.lock f.isreg)

/-- The decoder (R88): every word is one instruction or a reserved encoding. -/
def decode (w : CmdWord) : Except IllegalCode Instr := decodeFields (cmdFields w)

/-- The `match` value of an instruction's row in spec/opcode_table.json: the canonical word with `lock` and `isreg`
zero (R87). -/
def Instr.rowMatch : Instr → CmdWord
  | .not8 _ _ => 0x0000#16
  | .not16 _ _ => 0x00A0#16
  | .not32 _ _ => 0x0080#16
  | .not64 _ _ => 0x00C0#16
  | .neg8 _ _ => 0x0100#16
  | .neg16 _ _ => 0x01A0#16
  | .neg32 _ _ => 0x0180#16
  | .neg64 _ _ => 0x01C0#16
  | .inc8 _ _ => 0x0200#16
  | .inc16 _ _ => 0x02A0#16
  | .inc32 _ _ => 0x0280#16
  | .inc64 _ _ => 0x02C0#16
  | .dec8 _ _ => 0x0300#16
  | .dec16 _ _ => 0x03A0#16
  | .dec32 _ _ => 0x0380#16
  | .dec64 _ _ => 0x03C0#16
  | .incdec8Inc _ _ => 0x0400#16
  | .incdec8Dec _ _ => 0x0401#16

/-- The `mask` value of an instruction's row in spec/opcode_table.json: the fixed bits of the pattern of R87. -/
def Instr.rowMask : Instr → CmdWord
  | .not8 _ _ | .neg8 _ _ | .inc8 _ _ | .dec8 _ _ => 0xFF80#16
  | .not16 _ _ | .neg16 _ _ | .inc16 _ _ | .dec16 _ _ => 0xFFE0#16
  | .not32 _ _ | .neg32 _ _ | .inc32 _ _ | .dec32 _ _ => 0xFFE0#16
  | .not64 _ _ | .neg64 _ _ | .inc64 _ _ | .dec64 _ _ => 0xFFC0#16
  | .incdec8Inc _ _ | .incdec8Dec _ _ => 0xFF87#16

/-- The encoder: the canonical word, ignored fields zero (R83, R91), `lock` at bit 4 and `isreg` at bit 3 (R81). -/
def encode (i : Instr) : CmdWord :=
  i.rowMatch ||| (if i.lock then 0x0010#16 else 0#16) ||| (if i.isreg then 0x0008#16 else 0#16)

/-- The instruction the decoder reads from a word numbered as spec/opcode_table.json numbers it. A command is one
16-bit word (R85); its payload is not part of the word. -/
def decodeTableWord (nbits w : Nat) : Option Instr :=
  if nbits = 16 ∧ w < 2 ^ 16 then
    match decode (BitVec.ofNat 16 w) with
    | .ok i => some i
    | .error _ => none
  else none

end Sys2Proof
end

