-- ==== Sys2Proof/Machine/State.lean ====
section
/-! DEFINITION. The state of the block as plain data, its faults and refusals, and reset (spec/10_state.md). -/

namespace Sys2Proof.Machine

/-- The condition-flag record of one virtual processor (R21). -/
structure Flags where
  CF : Bool
  PF : Bool
  AF : Bool
  ZF : Bool
  SF : Bool
  OF : Bool
deriving DecidableEq, Repr

/-- The fault record of one virtual processor (R42). -/
inductive FaultRec where
  | none
  | illegal (code : IllegalCode)
  | violation (code : ViolationCode)
deriving DecidableEq, Repr

/-- The states of the sequencer (R39, R127). Between steps a virtual processor rests in `idle`, `directRmw`,
`atomicCasLoop`, `unsupportedTrap` or `abort`; the others are passed through within a step (log 14). -/
inductive SeqState where
  | idle | selectWidth | resolveOperand | directRmw | atomicCasLoop | unsupportedTrap | zeroExtend | done | abort
deriving DecidableEq, Repr

/-- Where a memory command in flight stands (R244). A byte of the operand is named by its offset from the address. -/
inductive Phase where
  /-- `DIRECT_RMW`: the bytes still to be read, and the bytes read so far. -/
  | reading (todo : List Nat) (got : List (Nat × Byte))
  /-- `DIRECT_RMW`: the bytes still to be written. -/
  | writing (todo : List (Nat × Byte))
  /-- `ATOMIC_CAS_LOOP`: the next step is `MemReadAtomic`. -/
  | casRead
  /-- `ATOMIC_CAS_LOOP`: the next step is `MemCAS`; the CAS temporaries of R40, `old` and `cand` in the low bits. -/
  | casSwap (old cand : BitVec 64) (lf : Flags)
deriving DecidableEq, Repr

/-- The transient state of one memory command in flight: operation (R38), operand location `MemLoc(addr)` and width
(R36), lock intent (R37), and how far it has come. -/
structure InFlight where
  family : Family
  width : Width
  addr : Addr
  lock : Bool
  phase : Phase
deriving DecidableEq, Repr

/-- One virtual processor (R20, R215): register file (R30), flags (R21), fault record (R42), sequencer state (R39), the
command in flight (R36, R37, R40), and the commands still to be executed (R33, the model's bookkeeping). -/
structure VP where
  regs : Vector Reg64 16
  flags : Flags
  fault : FaultRec
  seq : SeqState
  inflight : Option InFlight
  cmds : List Command
deriving DecidableEq, Repr

/-- The host capabilities `HOST_CAS8`, `HOST_CAS32`, `HOST_CAS64` (R6): fixed before reset, never changed. -/
structure HostCaps where
  cas8 : Bool
  cas32 : Bool
  cas64 : Bool
deriving DecidableEq, Repr

/-- The command handed to the block (R80): who executes it, and the resolver's answer. The word is `exec`'s argument. -/
structure Port where
  vp : Nat
  payload : Payload
deriving DecidableEq, Repr

/-- Guest memory (R35): address and byte pairs, addresses rising, no byte equal to `Config.blankByte`, which every
unlisted address reads as (log 2). -/
abbrev Memory := List Host.Cell

/-- The state of the block (R43), with the commands in flight and the model's own fields `port`, `script`, `tick`. -/
structure State where
  vps : List VP
  mem : Memory
  abort : Bool
  host : HostCaps
  port : Port
  script : List Nat
  tick : Nat
deriving DecidableEq, Repr

/-- Why no step is taken. Every one is a stuck state of the spec, not an exception: the block's two exceptions are
NEXT states. All safe: the spec enables no step there. -/
inductive Fault where
  /-- Raised by `step` and by every meaning while the abort latch is set: "no step is enabled" (R41, R111, U20). Safe. -/
  | aborted
  /-- Raised by every meaning when its virtual processor has a fault record: it "executes no further command" (R208, U20).
  Safe. -/
  | vpStopped
  /-- Raised by `step` when no virtual processor has a step to take: the run has ended (R245). Safe. -/
  | runEnded
deriving DecidableEq, Repr

/-- Why the model gives no outcome. -/
inductive Refusal where
  /-- No meaning for the instruction yet. Safe. Raised by no arm of this model. -/
  | notModelled (mnemonic : String)
  /-- Raised by every meaning: a register payload with `res_ok = 1` outside the limits of R31: "the source gives it no
  meaning and a model refuses it" (R84, U13). Safe. -/
  | payloadOutsideContract
  /-- Raised by every meaning: a memory operand that runs past the top of memory, which no command "the resolver admits"
  does (R51). Safe. -/
  | operandWraps
  /-- Raised by `step` and every meaning: a command for a virtual processor that does not exist (R20). Safe. -/
  | noSuchVp
  /-- Raised by every meaning: a command handed to a virtual processor whose last one has not ended, which run to
  completion excludes (R132). `step` never does so. Safe. -/
  | vpBusy
deriving DecidableEq, Repr

/-- All six flags clear. DESIGN CHOICE (log 1), unsafe: the spec gives no reset value (R44). -/
def Flags.clear : Flags := ⟨false, false, false, false, false, false⟩

/-- All three capabilities present, the default of R6. -/
def HostCaps.all : HostCaps := ⟨true, true, true⟩

/-- A virtual processor at machine startup (R44, R230): sequencer idle, no temporaries, no fault; registers and flags
as `INIT` says; its commands are loaded from outside (log 13). -/
def VP.launch (regs : Vector Reg64 16) (flags : Flags) (cmds : List Command) : VP where
  regs := regs
  flags := flags
  fault := .none
  seq := .idle
  inflight := none
  cmds := cmds

/-- The argument `INIT` of R44, with the other open parameters (R6): one entry for each virtual processor, the contents
of memory, the host capabilities. -/
structure Init where
  vps : List (Vector Reg64 16 × Flags × List Command)
  mem : Memory
  host : HostCaps
deriving DecidableEq, Repr

/-- Reset, that is machine startup, from a launch state (R44, R230). -/
def State.launch (init : Init) : State where
  vps := init.vps.map fun x => VP.launch x.1 x.2.1 x.2.2
  mem := init.mem
  abort := false
  host := init.host
  port := ⟨0, ⟨false, 0⟩⟩
  script := []
  tick := 0

/-- The launch state of `State.reset`: every register and flag 0 (log 1), memory with nothing listed (log 2),
`Config.resetNvp` virtual processors (log 3), all host capabilities (R6), no commands (log 13). DESIGN CHOICE, unsafe. -/
def Init.reset : Init where
  vps := List.replicate Config.resetNvp (Vector.replicate 16 Config.resetReg, Flags.clear, [])
  mem := []
  host := HostCaps.all

/-- The machine right after reset. -/
def State.reset : State := State.launch Init.reset

end Sys2Proof.Machine
end

