-- ==== Sys2Proof/Machine/Ops.lean ====
section
/-! DEFINITION. The named operations over memory, registers and virtual processors, the free choices, and taking a fault
(spec/20_memory.md R53 to R58, spec/10_state.md R30, R31, spec/60_exceptions.md R201, R203). -/

namespace Sys2Proof.Machine

/-! ### Guest memory -/

/-- The canonical form of a memory list: addresses below 2^64 and strictly rising, no byte that an unlisted address
would read as. -/
def Memory.wf (m : Memory) : Bool :=
  m.all (fun c => decide (c.1 < 2 ^ 64) && c.2 != Config.blankByte) &&
    decide ((m.map Prod.fst).Pairwise (· < ·))

/-- One byte of memory (R35). The list is in rising order, so the search stops at a higher address. -/
def Memory.read : Memory → Nat → Byte
  | [], _ => Config.blankByte
  | c :: m, a => if a < c.1 then Config.blankByte else if a = c.1 then c.2 else Memory.read m a

/-- Storing one byte (R66), keeping the canonical form. -/
def Memory.write : Memory → Nat → Byte → Memory
  | [], a, b => if b = Config.blankByte then [] else [(a, b)]
  | c :: m, a, b =>
    if a < c.1 then (if b = Config.blankByte then c :: m else (a, b) :: c :: m)
    else if a = c.1 then (if b = Config.blankByte then m else (a, b) :: m)
    else c :: Memory.write m a b

/-- The address of byte `k` of the operand at `addr` (R50). No command the resolver admits wraps (R51). -/
def byteAddr (addr : Addr) (k : Nat) : Nat := (addr + BitVec.ofNat 64 k).toNat

/-- Byte `k` of a value, bits `8k+7:8k` (R53). -/
def byteOf {W : Nat} (v : BitVec W) (k : Nat) : Byte := v.extractLsb' (8 * k) 8

/-- The sum over `k < n` of the byte at `addr + k` times `2^(8k)` (R53). -/
def littleEndianSum (m : Memory) (addr : Addr) : Nat → Nat
  | 0 => 0
  | n + 1 => littleEndianSum m addr n + (Memory.read m (byteAddr addr n)).toNat * 2 ^ (8 * n)

/-- `MemRead(addr, n)` and `MemReadAtomic(addr, n)` (R53, R58): the `n` bytes as a little-endian integer. -/
def memRead (m : Memory) (addr : Addr) (n : Nat) : BitVec (8 * n) :=
  BitVec.ofNat (8 * n) (littleEndianSum m addr n)

/-- `MemWrite(addr, n, v)` (R53): `v[8k+7:8k]` at `addr + k` for each `k < n`. -/
def memWrite {W : Nat} (m : Memory) (addr : Addr) (v : BitVec W) : Nat → Memory
  | 0 => m
  | n + 1 => Memory.write (memWrite m addr v n) (byteAddr addr n) (byteOf v n)

/-- `MemCAS(addr, n, expected, desired)` (R57), strong: whether it succeeded, and memory after it. -/
def memCas (m : Memory) (addr : Addr) (n : Nat) (expected desired : BitVec (8 * n)) : Bool × Memory :=
  if memRead m addr n = expected then (true, memWrite m addr desired n) else (false, m)

/-- The value spelled by bytes with their offsets, in whatever order they were read (R53, R56). -/
def bytesValue (W : Nat) (got : List (Nat × Byte)) : BitVec W :=
  BitVec.ofNat W ((got.map fun kb => kb.2.toNat * 2 ^ (8 * kb.1)).sum)

/-! ### General registers -/

/-- General register `r` (R30). -/
def VP.reg (p : VP) (r : Fin 16) : Reg64 := p.regs.get r

/-- Writing all 64 bits of general register `r` (R8). -/
def VP.setReg (p : VP) (r : Fin 16) (x : Reg64) : VP := { p with regs := p.regs.set r.val x r.isLt }

/-- `x[8*(off+n)-1 : 8*off]` (R31). -/
def regSlice (x : Reg64) (off n : Nat) : BitVec (8 * n) := x.extractLsb' (8 * off) (8 * n)

/-- `x[8*(off+n)-1 : 8*off] <- v`, the other bits kept (R8, R31). -/
def regInsert (x : Reg64) (off n : Nat) (v : BitVec (8 * n)) : Reg64 :=
  (x &&& ~~~((BitVec.allOnes (8 * n)).setWidth 64 <<< (8 * off))) ||| (v.setWidth 64 <<< (8 * off))

/-- `x[63:32] <- 0` (R126). -/
def zeroUpperHalf (x : Reg64) : Reg64 := x &&& 0x00000000FFFFFFFF#64

/-! ### Virtual processors -/

/-- Replacing the record of virtual processor `v`. -/
def State.setVp (s : State) (v : Nat) (p : VP) : State := { s with vps := s.vps.set v p }

/-- Replacing memory and the record of virtual processor `v`. -/
def State.commit (s : State) (v : Nat) (p : VP) (m : Memory) : State := { s.setVp v p with mem := m }

/-- The end of a command (R43, R127): the sequencer is idle and nothing of the command is kept. -/
def VP.endCommand (p : VP) : VP := { p with seq := .idle, inflight := none }

/-- A virtual processor has an enabled step: no fault (R208), and a command in flight (R70) or one still to execute. -/
def VP.canStep (p : VP) : Bool := p.fault == .none && (p.inflight.isSome || !p.cmds.isEmpty)

/-- Virtual processor `v` exists and has an enabled step. -/
def State.canStep (s : State) (v : Nat) : Bool :=
  match s.vps[v]? with
  | none => false
  | some p => p.canStep

/-- The virtual processors that have an enabled step, in rising order, the abort latch aside. -/
def State.enabled (s : State) : List Nat := (List.range s.vps.length).filter s.canStep

/-- No virtual processor but `v` has an enabled step, so that nothing can come between the steps of a command of `v`
(R133; log 6). -/
def State.quiet (s : State) (v : Nat) : Bool := s.enabled.all (· == v)

/-! ### Free choices -/

/-- The next free choice: the next one written out, else the uninterpreted one (log 5). -/
def State.draw (s : State) : Nat × State :=
  match s.script with
  | c :: rest => (c, { s with script := rest })
  | [] => (Config.freeChoice s.tick, { s with tick := s.tick + 1 })

/-- A free choice among `k` alternatives, numbered from 0; nothing is drawn where there is one only. -/
def State.choose (s : State) (k : Nat) : Nat × State :=
  if k ≤ 1 then (0, s) else (s.draw.1 % k, s.draw.2)

/-! ### Taking a fault

There is no trap entry (R208: nothing is saved, control goes nowhere) and no return from a fault (R209). -/

/-- `raise IllegalInstruction(code)` (R201): the sequencer goes to `UNSUPPORTED_TRAP`, the command ends, the fault record
is written, and nothing else. -/
def State.raiseIllegal (s : State) (v : Nat) (p : VP) (code : IllegalCode) : State :=
  s.setVp v { p with seq := .unsupportedTrap, fault := .illegal code }

/-- `raise InvariantViolation(code)` (R203): the sequencer goes to `ABORT`, the fault record is written, the abort latch
is set, and nothing else. -/
def State.raiseViolation (s : State) (v : Nat) (p : VP) (code : ViolationCode) : State :=
  { s.setVp v { p with seq := .abort, fault := .violation code } with abort := true }

end Sys2Proof.Machine
end

