-- ==== Sys2Proof/Machine/Flags.lean ====
section
/-! DEFINITION. The flag computations (spec/10_state.md R22 to R29, spec/40_dispatch_and_sequencer.md R130) and the packed
layout (R28). -/

namespace Sys2Proof.Machine

/-- `zf(r)`: the result is zero (R22, R130). -/
def zeroFlag {W : Nat} (r : BitVec W) : Bool := r == 0

/-- `sf_W(r)`: bit `W-1` of the result (R23, R130). -/
def signFlag {W : Nat} (r : BitVec W) : Bool := r.getLsbD (W - 1)

/-- `pf(r)`: the low eight bits of the result hold an even number of ones, at every width (R26, R130). -/
def parityFlag {W : Nat} (r : BitVec W) : Bool := (List.range 8).countP (fun i => r.getLsbD i) % 2 == 0

/-- `v[3:0]` (R27). -/
def lowNibble {W : Nat} (v : BitVec W) : BitVec 4 := v.extractLsb' 0 4

/-- `v = 2^(W-1)`, the overflow of NEG and DEC (R25). -/
def isMostNegative {W : Nat} (v : BitVec W) : Bool := v.toNat == 2 ^ (W - 1)

/-- `v = 2^(W-1) - 1`, the overflow of INC (R25). -/
def isMostPositive {W : Nat} (v : BitVec W) : Bool := v.toNat == 2 ^ (W - 1) - 1

/-- The six flags in one 32-bit word, written over the bits they have there; every other bit of the word is kept (R28). -/
def Flags.packInto (f : Flags) (word : BitVec 32) : BitVec 32 :=
  (word &&& ~~~0x000008D5#32)
    ||| ((BitVec.ofBool f.CF).setWidth 32 <<< 0)
    ||| ((BitVec.ofBool f.PF).setWidth 32 <<< 2)
    ||| ((BitVec.ofBool f.AF).setWidth 32 <<< 4)
    ||| ((BitVec.ofBool f.ZF).setWidth 32 <<< 6)
    ||| ((BitVec.ofBool f.SF).setWidth 32 <<< 7)
    ||| ((BitVec.ofBool f.OF).setWidth 32 <<< 11)

/-- The six flags of a 32-bit word (R28). -/
def Flags.unpack (word : BitVec 32) : Flags where
  CF := word.getLsbD 0
  PF := word.getLsbD 2
  AF := word.getLsbD 4
  ZF := word.getLsbD 6
  SF := word.getLsbD 7
  OF := word.getLsbD 11

end Sys2Proof.Machine
end

