-- ==== Sys2Proof/Machine/Alu.lean ====
section
/-! DEFINITION. The four operation functions and the operation table (spec/41_not.md R150, spec/42_neg.md R160,
spec/43_inc.md R170, spec/44_dec.md R180, spec/40_dispatch_and_sequencer.md R116, R129). The second operand `_y` is
unused (R129). -/

namespace Sys2Proof.Machine

/-- `not_W` (R150): the complement; no flag is written. -/
def notOp {W : Nat} (v _y : BitVec W) (fin : Flags) : BitVec W × Flags := (~~~v, fin)

/-- `neg_W` (R160): all six flags are written, none is read. -/
def negOp {W : Nat} (v _y : BitVec W) (_fin : Flags) : BitVec W × Flags :=
  let r := -v
  (r, { CF := v != 0
        PF := parityFlag r
        AF := lowNibble v != 0
        ZF := zeroFlag r
        SF := signFlag r
        OF := isMostNegative v })

/-- `inc_W` (R170): five flags are written, `CF` is carried through. -/
def incOp {W : Nat} (v _y : BitVec W) (fin : Flags) : BitVec W × Flags :=
  let r := v + 1
  (r, { fin with
        PF := parityFlag r
        AF := lowNibble v == 0xF
        ZF := zeroFlag r
        SF := signFlag r
        OF := isMostPositive v })

/-- `dec_W` (R180): five flags are written, `CF` is carried through. -/
def decOp {W : Nat} (v _y : BitVec W) (fin : Flags) : BitVec W × Flags :=
  let r := v - 1
  (r, { fin with
        PF := parityFlag r
        AF := lowNibble v == 0x0
        ZF := zeroFlag r
        SF := signFlag r
        OF := isMostNegative v })

/-- `OPS[family][k]`, the operation table (R38, R116), with the width in place of its slot number `k`. -/
def ops (f : Family) (w : Width) : BitVec w.bits → BitVec w.bits → Flags → BitVec w.bits × Flags :=
  match f with
  | .NOT => notOp
  | .NEG => negOp
  | .INC => incOp
  | .DEC => decOp

end Sys2Proof.Machine
end

