-- ==== Sys2Proof/Machine/Operands.lean ====
section
/-! DEFINITION. The operand of a command: the resolver's answer, its location, and reads and writes of a location
(spec/30_encoding.md R84, spec/10_state.md R31, spec/40_dispatch_and_sequencer.md R117, R119, R126). -/

namespace Sys2Proof.Machine

/-- An operand location (R36): a byte range of a register of the executing virtual processor, or of guest memory. -/
inductive Location where
  | regLoc (r : Fin 16) (off : Nat)
  | memLoc (addr : Addr)
deriving DecidableEq, Repr

/-- The payload's location at the selected width (R84, R117), or the refusal of one outside the resolver's contract.
`loc_ref[3:0]` is always below `NREG = 16`. -/
def resolve (w : Width) (isreg : Bool) (locRef : BitVec 64) : Except Refusal Location :=
  if isreg then
    let off := (locRef.extractLsb' 4 3).toNat
    if locRef.extractLsb' 7 57 ≠ 0 ∨ off > 1 ∨ (off = 1 ∧ w ≠ .w8) then .error .payloadOutsideContract
    else .ok (.regLoc (locRef.extractLsb' 0 4).toFin off)
  else if locRef.toNat + w.bytes > 2 ^ 64 then .error .operandWraps
  else .ok (.memLoc locRef)

/-- `aligned(addr, n) = (addr mod n = 0)` (R55). A byte is always aligned. -/
def aligned (addr : Addr) (w : Width) : Bool := addr.toNat % w.bytes == 0

/-- `HOST_CAS(n)` (R111); a 16-bit command never reaches it (R115). -/
def HostCaps.hasCas (h : HostCaps) : Width → Bool
  | .w8 => h.cas8
  | .w16 => false
  | .w32 => h.cas32
  | .w64 => h.cas64

/-- `LocRead(loc, n)` (R117). -/
def locRead (p : VP) (m : Memory) (loc : Location) (n : Nat) : BitVec (8 * n) :=
  match loc with
  | .regLoc r off => regSlice (p.reg r) off n
  | .memLoc addr => memRead m addr n

/-- `LocWrite(loc, n, v)` (R117). -/
def locWrite (p : VP) (m : Memory) (loc : Location) (n : Nat) (v : BitVec (8 * n)) : VP × Memory :=
  match loc with
  | .regLoc r off => (p.setReg r (regInsert (p.reg r) off n v), m)
  | .memLoc addr => (p, memWrite m addr v n)

/-- `ZERO_EXTEND` (R126): after a 32-bit register result bits 63:32 of the register are zero; never for memory, never at
another width. -/
def zeroExtend (w : Width) (loc : Location) (p : VP) : VP :=
  match w, loc with
  | .w32, .regLoc r _ => p.setReg r (zeroUpperHalf (p.reg r))
  | _, _ => p

end Sys2Proof.Machine
end

