-- ==== Sys2Proof/Machine/Sequencer.lean ====
section
/-! DEFINITION. The read-modify-write sequencer: path selection, the two commit paths, whole and step by step, and
`Execute`, the whole of one command (spec/40_dispatch_and_sequencer.md R110 to R133). -/

namespace Sys2Proof.Machine

/-! ### Path selection -/

/-- The three ways a resolved command goes on (R119). -/
inductive Path where
  | plain | atomic | noAtomic
deriving DecidableEq, Repr

/-- Path selection (R119, R120, R125): the alignment gate first, then the host's capability. A locked register operand
does not come here (R118). -/
def choosePath (lock : Bool) (w : Width) (loc : Location) (h : HostCaps) : Path :=
  match loc with
  | .regLoc _ _ => .plain
  | .memLoc addr =>
    if lock && aligned addr w then (if h.hasCas w then .atomic else .noAtomic) else .plain

/-- What the transition table of R127 looks at. -/
structure CmdFacts where
  width : Width
  lock : Bool
  isreg : Bool
  resOk : Bool
  aligned : Bool
  hostCas : Bool
deriving DecidableEq, Repr

/-- The transitions of the sequencer for a command that decodes to an instruction (R127); `casOk` is the outcome of the
compare-and-swap. `ABORT` is never left, and `UNSUPPORTED_TRAP` is kept, since no command follows it (R208; log 14). -/
def CmdFacts.next (f : CmdFacts) (casOk : Bool) : SeqState → SeqState
  | .idle => .selectWidth
  | .selectWidth => if f.width = .w16 && f.lock then .abort else .resolveOperand
  | .resolveOperand =>
    if !f.resOk then .unsupportedTrap
    else if f.lock && f.isreg then .abort
    else if f.lock && f.aligned then (if f.hostCas then .atomicCasLoop else .unsupportedTrap)
    else .directRmw
  | .directRmw => if f.width = .w32 && f.isreg then .zeroExtend else .done
  | .atomicCasLoop => if casOk then .done else .atomicCasLoop
  | .zeroExtend => .done
  | .done => .idle
  | .unsupportedTrap => .unsupportedTrap
  | .abort => .abort

/-! ### The commit paths, whole -/

/-- `DIRECT_RMW` and `ZERO_EXTEND` with nothing in between (R121, R126): a register command always (R133), a memory
command where no other virtual processor has a step to take. -/
def directRmw (f : Family) (w : Width) (loc : Location) (p : VP) (m : Memory) : VP × Memory :=
  let old := locRead p m loc w.bytes
  let res := ops f w old 0 p.flags
  let out := locWrite { p with flags := res.2 } m loc w.bytes res.1
  (zeroExtend w loc out.1, out.2)

/-- One iteration of `ATOMIC_CAS_LOOP` with nothing in between (R122): whether the swap succeeded, the virtual processor
and memory after it. The flags are those of the winning candidate (R123). -/
def casIteration (f : Family) (w : Width) (addr : Addr) (p : VP) (m : Memory) : Bool × VP × Memory :=
  let old := memRead m addr w.bytes
  let res := ops f w old 0 p.flags
  let swap := memCas m addr w.bytes old res.1
  (swap.1, if swap.1 then { p with flags := res.2 } else p, swap.2)

/-! ### The commit paths, step by step (R244) -/

/-- One byte read of a plain access, a free choice among those still to be read (R56). The last one computes the result
and writes the flags (R121; log 15). -/
def State.readByteStep (s : State) (v : Nat) (p : VP) (f : InFlight) (todo : List Nat) (got : List (Nat × Byte)) :
    State :=
  let c := s.choose todo.length
  let k := todo.getD c.1 0
  let got' := (k, Memory.read s.mem (byteAddr f.addr k)) :: got
  match todo.eraseIdx c.1 with
  | [] =>
    let res := ops f.family f.width (bytesValue f.width.bits got') 0 p.flags
    let todo' := (List.range f.width.bytes).map fun j => (j, byteOf res.1 j)
    c.2.setVp v { p with flags := res.2, inflight := some { f with phase := .writing todo' } }
  | k' :: rest => c.2.setVp v { p with inflight := some { f with phase := .reading (k' :: rest) got' } }

/-- One byte write of a plain access, a free choice among those still to be written (R56). The last one ends the
command. -/
def State.writeByteStep (s : State) (v : Nat) (p : VP) (f : InFlight) (todo : List (Nat × Byte)) : State :=
  let c := s.choose todo.length
  let kb := todo.getD c.1 (0, Memory.read s.mem (byteAddr f.addr 0))
  let m := Memory.write s.mem (byteAddr f.addr kb.1) kb.2
  match todo.eraseIdx c.1 with
  | [] => c.2.commit v p.endCommand m
  | kb' :: rest => c.2.commit v { p with inflight := some { f with phase := .writing (kb' :: rest) } } m

/-- `MemReadAtomic` of an iteration, with the candidate and the local flags computed from the value observed (R122). -/
def State.casReadStep (s : State) (v : Nat) (p : VP) (f : InFlight) : State :=
  let old := memRead s.mem f.addr f.width.bytes
  let res := ops f.family f.width old 0 p.flags
  s.setVp v { p with inflight := some { f with phase := .casSwap (old.setWidth 64) (res.1.setWidth 64) res.2 } }

/-- `MemCAS` of an iteration (R122): on success the command ends and the local flags of the winning candidate are
written (R123); on failure nothing is written and the location is read afresh. -/
def State.casSwapStep (s : State) (v : Nat) (p : VP) (f : InFlight) (old cand : BitVec 64) (lf : Flags) : State :=
  let swap := memCas s.mem f.addr f.width.bytes (old.setWidth _) (cand.setWidth _)
  if swap.1 then s.commit v { p with flags := lf }.endCommand swap.2
  else s.setVp v { p with inflight := some { f with phase := .casRead } }

/-- The next step of the command in flight of virtual processor `v` (R127, R244). -/
def State.microStep (s : State) (v : Nat) (p : VP) (f : InFlight) : State :=
  match f.phase with
  | .reading todo got => s.readByteStep v p f todo got
  | .writing todo => s.writeByteStep v p f todo
  | .casRead => s.casReadStep v p f
  | .casSwap old cand lf => s.casSwapStep v p f old cand lf

/-- A memory command enters `DIRECT_RMW` and makes its first byte read. -/
def State.beginPlain (s : State) (v : Nat) (p : VP) (f : Family) (w : Width) (lock : Bool) (addr : Addr) : State :=
  let fl : InFlight := ⟨f, w, addr, lock, .reading (List.range w.bytes) []⟩
  s.microStep v { p with seq := .directRmw, inflight := some fl } fl

/-- A memory command enters `ATOMIC_CAS_LOOP` and makes its first atomic read. -/
def State.beginAtomic (s : State) (v : Nat) (p : VP) (f : Family) (w : Width) (lock : Bool) (addr : Addr) : State :=
  let fl : InFlight := ⟨f, w, addr, lock, .casRead⟩
  s.microStep v { p with seq := .atomicCasLoop, inflight := some fl } fl

/-! ### Execute -/

/-- The plain path of a command (R121): one step for a register operand (R133) and where no other virtual processor has
a step to take (log 6), else the first of the steps of R244. -/
def State.runPlain (s : State) (v : Nat) (p : VP) (f : Family) (w : Width) (lock : Bool) (loc : Location) : State :=
  match loc with
  | .regLoc _ _ =>
    let out := directRmw f w loc p s.mem
    s.commit v out.1 out.2
  | .memLoc addr =>
    if s.quiet v then
      let out := directRmw f w loc p s.mem
      s.commit v out.1 out.2
    else s.beginPlain v p f w lock addr

/-- The atomic path of a command (R122): one iteration where no other virtual processor has a step to take (log 6), else
the first of the steps of R244. -/
def State.runAtomic (s : State) (v : Nat) (p : VP) (f : Family) (w : Width) (lock : Bool) (addr : Addr) : State :=
  let out := casIteration f w addr p s.mem
  if s.quiet v && out.1 then s.commit v out.2.1 out.2.2
  else s.beginAtomic v p f w lock addr

/-- A resolved command of virtual processor `v` (R118, R119): lock legality, then the path. -/
def State.runResolved (s : State) (v : Nat) (p : VP) (f : Family) (w : Width) (lock isreg : Bool) (loc : Location) :
    State :=
  if lock && isreg then s.raiseViolation v p .IV_LOCK_REG
  else
    match choosePath lock w loc s.host, loc with
    | .noAtomic, _ => s.raiseIllegal v p .UD_NO_ATOMIC
    | .atomic, .memLoc addr => s.runAtomic v p f w lock addr
    | _, _ => s.runPlain v p f w lock loc

/-- `Execute(vp, cmd, payload)` of R111 from the selected family and width on, for the command at the port. The first
three lines are its stuck states and run to completion (R41, R208, R132). -/
def execute (f : Family) (w : Width) (lock isreg : Bool) (s : State) : Host.Outcome State Fault Refusal :=
  match s.vps[s.port.vp]? with
  | none => .refused .noSuchVp
  | some p =>
    if s.abort then .fault .aborted
    else if p.fault ≠ .none then .fault .vpStopped
    else if p.seq ≠ .idle then .refused .vpBusy
    else if w = .w16 && lock then .next (s.raiseViolation s.port.vp p .IV_LOCK_16)
    else if !s.port.payload.resOk then .next (s.raiseIllegal s.port.vp p .UD_RESOLVE)
    else
      match resolve w isreg s.port.payload.locRef with
      | .error why => .refused why
      | .ok loc => .next (s.runResolved s.port.vp p f w lock isreg loc)

end Sys2Proof.Machine
end

