-- ==== Sys2Proof/Machine/Dec.lean ====
section
/-! DEFINITION. The meanings of DEC8, DEC16, DEC32 and DEC64 (spec/44_dec.md): `Execute` of R111 with the operation
R180 gives the family. -/

namespace Sys2Proof.Machine

/-- DEC8 (R181): minus one, `PF AF ZF SF OF` written, `CF` kept; an 8-bit location, a lock only on memory. -/
def execDec8 (lock isreg : Bool) (s : State) : Host.Outcome State Fault Refusal :=
  execute .DEC .w8 lock isreg s

/-- DEC16 (R182): minus one, `PF AF ZF SF OF` written, `CF` kept; a 16-bit location, always the plain path, no lock. -/
def execDec16 (lock isreg : Bool) (s : State) : Host.Outcome State Fault Refusal :=
  execute .DEC .w16 lock isreg s

/-- DEC32 (R183): minus one, `PF AF ZF SF OF` written, `CF` kept; a 32-bit location, a lock only on memory; a register result is zero-extended. -/
def execDec32 (lock isreg : Bool) (s : State) : Host.Outcome State Fault Refusal :=
  execute .DEC .w32 lock isreg s

/-- DEC64 (R184): minus one, `PF AF ZF SF OF` written, `CF` kept; a 64-bit location, a lock only on memory. -/
def execDec64 (lock isreg : Bool) (s : State) : Host.Outcome State Fault Refusal :=
  execute .DEC .w64 lock isreg s

end Sys2Proof.Machine
end

