-- ==== Sys2Proof/Machine/Inc.lean ====
section
/-! DEFINITION. The meanings of INC8, INC16, INC32 and INC64 (spec/43_inc.md): `Execute` of R111 with the operation
R170 gives the family. -/

namespace Sys2Proof.Machine

/-- INC8 (R171): plus one, `PF AF ZF SF OF` written, `CF` kept; an 8-bit location, a lock only on memory. -/
def execInc8 (lock isreg : Bool) (s : State) : Host.Outcome State Fault Refusal :=
  execute .INC .w8 lock isreg s

/-- INC16 (R172): plus one, `PF AF ZF SF OF` written, `CF` kept; a 16-bit location, always the plain path, no lock. -/
def execInc16 (lock isreg : Bool) (s : State) : Host.Outcome State Fault Refusal :=
  execute .INC .w16 lock isreg s

/-- INC32 (R173): plus one, `PF AF ZF SF OF` written, `CF` kept; a 32-bit location, a lock only on memory; a register result is zero-extended. -/
def execInc32 (lock isreg : Bool) (s : State) : Host.Outcome State Fault Refusal :=
  execute .INC .w32 lock isreg s

/-- INC64 (R174): plus one, `PF AF ZF SF OF` written, `CF` kept; a 64-bit location, a lock only on memory. -/
def execInc64 (lock isreg : Bool) (s : State) : Host.Outcome State Fault Refusal :=
  execute .INC .w64 lock isreg s

end Sys2Proof.Machine
end

