-- ==== Sys2Proof/Machine/IncDec.lean ====
section
/-! DEFINITION. The meanings of the multiplexed entry, INCDEC8 /0 and INCDEC8 /1 (spec/45_incdec_mux.md): "exactly the
chosen family's byte-width command" (R190). Every other sub-opcode is the decoder's trap (R89). -/

namespace Sys2Proof.Machine

/-- INCDEC8 /0 (R191): `family <- INC`, then as INC8. -/
def execIncdec8Inc (lock isreg : Bool) (s : State) : Host.Outcome State Fault Refusal :=
  execute .INC .w8 lock isreg s

/-- INCDEC8 /1 (R192): `family <- DEC`, then as DEC8. -/
def execIncdec8Dec (lock isreg : Bool) (s : State) : Host.Outcome State Fault Refusal :=
  execute .DEC .w8 lock isreg s

end Sys2Proof.Machine
end

