-- ==== Sys2Proof/Machine/Neg.lean ====
section
/-! DEFINITION. The meanings of NEG8, NEG16, NEG32 and NEG64 (spec/42_neg.md): `Execute` of R111 with the operation
R160 gives the family. -/

namespace Sys2Proof.Machine

/-- NEG8 (R161): the two's-complement negation, all six flags written; an 8-bit location, a lock only on memory. -/
def execNeg8 (lock isreg : Bool) (s : State) : Host.Outcome State Fault Refusal :=
  execute .NEG .w8 lock isreg s

/-- NEG16 (R162): the two's-complement negation, all six flags written; a 16-bit location, always the plain path, no lock. -/
def execNeg16 (lock isreg : Bool) (s : State) : Host.Outcome State Fault Refusal :=
  execute .NEG .w16 lock isreg s

/-- NEG32 (R163): the two's-complement negation, all six flags written; a 32-bit location, a lock only on memory; a register result is zero-extended. -/
def execNeg32 (lock isreg : Bool) (s : State) : Host.Outcome State Fault Refusal :=
  execute .NEG .w32 lock isreg s

/-- NEG64 (R164): the two's-complement negation, all six flags written; a 64-bit location, a lock only on memory. -/
def execNeg64 (lock isreg : Bool) (s : State) : Host.Outcome State Fault Refusal :=
  execute .NEG .w64 lock isreg s

end Sys2Proof.Machine
end

