-- ==== Sys2Proof/Machine/Not.lean ====
section
/-! DEFINITION. The meanings of NOT8, NOT16, NOT32 and NOT64 (spec/41_not.md): `Execute` of R111 with the operation
R150 gives the family. -/

namespace Sys2Proof.Machine

/-- NOT8 (R151): the complement, no flag written; an 8-bit location, a lock only on memory. -/
def execNot8 (lock isreg : Bool) (s : State) : Host.Outcome State Fault Refusal :=
  execute .NOT .w8 lock isreg s

/-- NOT16 (R152): the complement, no flag written; a 16-bit location, always the plain path, no lock. -/
def execNot16 (lock isreg : Bool) (s : State) : Host.Outcome State Fault Refusal :=
  execute .NOT .w16 lock isreg s

/-- NOT32 (R153): the complement, no flag written; a 32-bit location, a lock only on memory; a register result is zero-extended. -/
def execNot32 (lock isreg : Bool) (s : State) : Host.Outcome State Fault Refusal :=
  execute .NOT .w32 lock isreg s

/-- NOT64 (R154): the complement, no flag written; a 64-bit location, a lock only on memory. -/
def execNot64 (lock isreg : Bool) (s : State) : Host.Outcome State Fault Refusal :=
  execute .NOT .w64 lock isreg s

end Sys2Proof.Machine
end

