-- ==== Sys2Proof/Machine/Dispatch.lean ====
section
/-! DEFINITION. One arm for each instruction. -/

namespace Sys2Proof.Machine

def exec (i : Instr) (s : State) : Host.Outcome State Fault Refusal :=
  match i with
  | .not8 lock isreg => Sys2Proof.Machine.execNot8 lock isreg s
  | .not16 lock isreg => Sys2Proof.Machine.execNot16 lock isreg s
  | .not32 lock isreg => Sys2Proof.Machine.execNot32 lock isreg s
  | .not64 lock isreg => Sys2Proof.Machine.execNot64 lock isreg s
  | .neg8 lock isreg => Sys2Proof.Machine.execNeg8 lock isreg s
  | .neg16 lock isreg => Sys2Proof.Machine.execNeg16 lock isreg s
  | .neg32 lock isreg => Sys2Proof.Machine.execNeg32 lock isreg s
  | .neg64 lock isreg => Sys2Proof.Machine.execNeg64 lock isreg s
  | .inc8 lock isreg => Sys2Proof.Machine.execInc8 lock isreg s
  | .inc16 lock isreg => Sys2Proof.Machine.execInc16 lock isreg s
  | .inc32 lock isreg => Sys2Proof.Machine.execInc32 lock isreg s
  | .inc64 lock isreg => Sys2Proof.Machine.execInc64 lock isreg s
  | .dec8 lock isreg => Sys2Proof.Machine.execDec8 lock isreg s
  | .dec16 lock isreg => Sys2Proof.Machine.execDec16 lock isreg s
  | .dec32 lock isreg => Sys2Proof.Machine.execDec32 lock isreg s
  | .dec64 lock isreg => Sys2Proof.Machine.execDec64 lock isreg s
  | .incdec8Inc lock isreg => Sys2Proof.Machine.execIncdec8Inc lock isreg s
  | .incdec8Dec lock isreg => Sys2Proof.Machine.execIncdec8Dec lock isreg s

end Sys2Proof.Machine
end

