-- ==== Sys2Proof/Machine/Issue.lean ====
section
/-! DEFINITION. What `step` does around `exec`: the choice of a virtual processor, handing it its next command
(spec/10_state.md R33, spec/30_encoding.md R80), and how a command is placed where the next step takes it (log 13). -/

namespace Sys2Proof.Machine

/-- The virtual processor that takes the next step, a free choice among those that have one (R12), and the state after
the choice. -/
def State.nextVp (s : State) : Option (Nat × State) :=
  match s.enabled with
  | [] => none
  | v :: rest =>
    let c := s.choose (v :: rest).length
    some ((v :: rest).getD c.1 v, c.2)

/-- Virtual processor `v` takes command `c` off its list and hands it to the block (R33, R80). -/
def State.present (s : State) (v : Nat) (p : VP) (c : Command) (rest : List Command) : State :=
  { s.setVp v { p with cmds := rest } with port := ⟨v, c.payload⟩ }

/-- A step of virtual processor `v`: the next step of its command in flight, or its next command, decoded and executed,
a reserved encoding raising its trap (R89, R111). -/
def stepVp (v : Nat) (s : State) : Host.Outcome State Fault Refusal :=
  match s.vps[v]? with
  | none => .refused .noSuchVp
  | some p =>
    match p.inflight with
    | some f => .next (s.microStep v p f)
    | none =>
      match p.cmds with
      | [] => .fault .runEnded
      | c :: rest =>
        match decode c.word with
        | .error code => .next ((s.present v p c rest).raiseIllegal v { p with cmds := rest } code)
        | .ok i => exec i (s.present v p c rest)

/-- Virtual processor 0 made ready, with one command in front of its list (log 13). -/
def placeCommand (c : Command) : List VP → List VP
  | [] => [VP.launch (Vector.replicate 16 Config.resetReg) Flags.clear [c]]
  | p :: rest => { p with fault := .none, seq := .idle, inflight := none, cmds := c :: p.cmds } :: rest

/-- The command with a word numbered as spec/opcode_table.json numbers it, and a payload that a resolver may hand over
with it: `res_ok = 1`, `loc_ref = 0` (log 13). -/
def tableCommand (nbits w : Nat) : Command := ⟨BitVec.ofNat 16 (w % 2 ^ nbits), ⟨true, 0⟩⟩

/-- The state in which the next step is virtual processor 0's and takes this command: no abort, and virtual processor 0
chosen if there is a choice. -/
def State.placeFirst (s : State) (c : Command) : State :=
  let t := { s with abort := false, vps := placeCommand c s.vps }
  if t.enabled.length ≤ 1 then t else { t with script := 0 :: t.script }

end Sys2Proof.Machine
end

