-- ==== Sys2Proof/Machine/Step.lean ====
section
/-! DEFINITION. One step of the block, and the placing of an instruction where the next step takes it. -/

namespace Sys2Proof.Machine

/-- One step (R12, R244): none while the abort latch is set (R41), none when no virtual processor has one (R245), else a
step of the virtual processor the schedule chooses. -/
def step (s : State) : Host.Outcome State Fault Refusal :=
  if s.abort then .fault .aborted
  else
    match s.nextVp with
    | none => .fault .runEnded
    | some c => stepVp c.1 c.2

/-- The state with the table's word as the next command of virtual processor 0, which takes the next step (log 13). -/
def State.withFetchWord (s : State) (nbits w : Nat) : State := s.placeFirst (tableCommand nbits w)

end Sys2Proof.Machine
end

