-- ==== Sys2Proof/Safety.lean ====
section
/-! DEFINITION. What counts as a good state and a good run: the coherence of the sequencer with its transient state and
the fault records (spec/10_state.md R36 to R43), and how a run ends (spec/70_reset_and_hazards.md R245). -/

namespace Sys2Proof.Machine

/-- A command in flight is one the rules let in, and its phase belongs to it: the bytes of a plain access still to move
are bytes of the operand (R54, R244), and the CAS temporaries are the operation's result for the value observed (R40,
R122). `fin` is the flag record of its virtual processor. -/
def InFlight.coherent (f : InFlight) (fin : Flags) : Bool :=
  decide (f.addr.toNat + f.width.bytes ≤ 2 ^ 64) &&
  match f.phase with
  | .reading todo got =>
    !todo.isEmpty && (todo ++ got.map Prod.fst).isPerm (List.range f.width.bytes)
  | .writing todo =>
    !todo.isEmpty && (todo.map Prod.fst).all (· < f.width.bytes) && decide (todo.map Prod.fst).Nodup
  | .casRead => f.lock
  | .casSwap old cand lf =>
    let res := ops f.family f.width (old.setWidth _) 0 fin
    f.lock && old.toNat < 2 ^ f.width.bits && cand == res.1.setWidth 64 && lf == res.2

/-- The path a command in flight is on agrees with path selection (R115, R119, R120): the atomic path is a lock on an
aligned operand of 1, 4 or 8 bytes, the plain path is no lock or the misaligned fallback. -/
def InFlight.onPath (f : InFlight) (h : HostCaps) : Bool :=
  choosePath f.lock f.width (.memLoc f.addr) h ==
    (match f.phase with
     | .reading _ _ | .writing _ => .plain
     | .casRead | .casSwap _ _ _ => .atomic)
  && !(f.lock && f.width == .w16)

/-- The sequencer state, the command in flight and the fault record of one virtual processor belong together (R39, R43,
R201, R203). -/
def VP.coherent (p : VP) (h : HostCaps) : Bool :=
  match p.seq, p.fault, p.inflight with
  | .idle, .none, none => true
  | .directRmw, .none, some f =>
    f.coherent p.flags && f.onPath h &&
      (match f.phase with
       | .reading _ _ | .writing _ => true
       | _ => false)
  | .atomicCasLoop, .none, some f =>
    f.coherent p.flags && f.onPath h &&
      (match f.phase with
       | .casRead | .casSwap _ _ _ => true
       | _ => false)
  | .unsupportedTrap, .illegal _, none => true
  | .abort, .violation _, none => true
  | _, _, _ => false

/-- A virtual processor's fault record is an invariant violation. -/
def VP.violated (p : VP) : Bool :=
  match p.fault with
  | .violation _ => true
  | _ => false

/-- The invariant of the machine: there is a virtual processor (R20), memory is in its canonical form, every virtual
processor is coherent, and the abort latch is set exactly when an invariant violation was raised (R41). -/
def State.coherent (s : State) : Bool :=
  !s.vps.isEmpty && Memory.wf s.mem && s.vps.all (·.coherent s.host) && s.abort == s.vps.any VP.violated

/-- A run with a fault record other than `none` is a faulted run (R208). -/
def State.faulted (s : State) : Bool := s.vps.any fun p => p.fault != .none

/-- A run has ended (R245): every virtual processor is done with its list and idle, or has a fault record, or the abort
latch is set. -/
def State.ended (s : State) : Bool :=
  s.abort || s.vps.all fun p => p.fault != .none || (p.cmds.isEmpty && p.seq == .idle)

/-- A run has ended well (R245): the first case for every virtual processor. -/
def State.endedWell (s : State) : Bool :=
  !s.abort && s.vps.all fun p => p.fault == .none && p.cmds.isEmpty && p.seq == .idle && p.inflight.isNone

end Sys2Proof.Machine
end

