-- ==== Sys2Proof/Certificates/Slice0/Obligations.lean ====
section
/-! DEFINITION. The statements for the provers, with the words they are written in. The words of `Sys2Proof.Claims` say what
the rules say without the model's own operation and flag functions. -/

namespace Sys2Proof.Claims

open Sys2Proof.Machine

/-! ### When a command executes, and where its operand stands -/

/-- Virtual processor `p` is the one the command is for, and no rule keeps it from executing: no abort (R41), no fault
record (R208), no command in flight (R132). -/
def Ready (s : State) (p : VP) : Prop :=
  s.vps[s.port.vp]? = some p ∧ s.abort = false ∧ p.fault = .none ∧ p.seq = .idle

/-- The resolver answered `RegLoc(r, off)` (R84): `loc_ref[3:0] = r`, `loc_ref[6:4] = off`, the rest 0. -/
def AtReg (s : State) (r : Fin 16) (off : Nat) : Prop :=
  s.port.payload = ⟨true, BitVec.ofNat 64 (r.val + 16 * off)⟩

/-- The resolver answered `MemLoc(a)` (R84). -/
def AtMem (s : State) (a : Addr) : Prop := s.port.payload = ⟨true, a⟩

/-- No virtual processor but `v` has a step to take: each has a fault record (R208), or no command in flight and none
left. -/
def Alone (s : State) (v : Nat) : Prop :=
  ∀ u q, s.vps[u]? = some q → u ≠ v → q.fault ≠ .none ∨ (q.inflight = none ∧ q.cmds = [])

/-! ### The four operations, as their rules give them -/

/-- An operation at every width: the result and the flags after it, from the operand and the flags before. -/
abbrev SpecOp := (W : Nat) → BitVec W → Flags → BitVec W × Flags

/-- `pf(r)` of R130: the sum of the low eight bits is even. -/
def evenOnes {W : Nat} (r : BitVec W) : Bool :=
  decide (((r.getLsbD 0).toNat + (r.getLsbD 1).toNat + (r.getLsbD 2).toNat + (r.getLsbD 3).toNat +
    (r.getLsbD 4).toNat + (r.getLsbD 5).toNat + (r.getLsbD 6).toNat + (r.getLsbD 7).toNat) % 2 = 0)

/-- `not_W` of R150: `r = 2^W - 1 - v`, the flags as they were. -/
def notSpec : SpecOp := fun W v fin => (BitVec.ofNat W (2 ^ W - 1 - v.toNat), fin)

/-- `neg_W` of R160. -/
def negSpec : SpecOp := fun W v _ =>
  let r := BitVec.ofNat W ((2 ^ W - v.toNat) % 2 ^ W)
  (r, { CF := decide (v.toNat ≠ 0)
        PF := evenOnes r
        AF := decide (v.toNat % 16 ≠ 0)
        ZF := decide (r.toNat = 0)
        SF := r.getLsbD (W - 1)
        OF := decide (v.toNat = 2 ^ (W - 1)) })

/-- `inc_W` of R170. -/
def incSpec : SpecOp := fun W v fin =>
  let r := BitVec.ofNat W ((v.toNat + 1) % 2 ^ W)
  (r, { CF := fin.CF
        PF := evenOnes r
        AF := decide (v.toNat % 16 = 15)
        ZF := decide (r.toNat = 0)
        SF := r.getLsbD (W - 1)
        OF := decide (v.toNat = 2 ^ (W - 1) - 1) })

/-- `dec_W` of R180. -/
def decSpec : SpecOp := fun W v fin =>
  let r := BitVec.ofNat W ((v.toNat + 2 ^ W - 1) % 2 ^ W)
  (r, { CF := fin.CF
        PF := evenOnes r
        AF := decide (v.toNat % 16 = 0)
        ZF := decide (r.toNat = 0)
        SF := r.getLsbD (W - 1)
        OF := decide (v.toNat = 2 ^ (W - 1)) })

/-- The operation of a family (R116). -/
def specOf : Family → SpecOp
  | .NOT => notSpec
  | .NEG => negSpec
  | .INC => incSpec
  | .DEC => decSpec

/-! ### The state after a command -/

/-- The state after a register command: one register and the flags of its virtual processor, nothing else. -/
def regDone (s : State) (p : VP) (r : Fin 16) (x : Reg64) (fl : Flags) : Host.Outcome State Fault Refusal :=
  .next { s with vps := s.vps.set s.port.vp { p with regs := p.regs.set r.val x r.isLt, flags := fl } }

/-- The state after a memory command: the `n` bytes at `a` and the flags of its virtual processor, nothing else. -/
def memDone {W : Nat} (s : State) (p : VP) (a : Addr) (n : Nat) (r : BitVec W × Flags) :
    Host.Outcome State Fault Refusal :=
  .next { s with vps := s.vps.set s.port.vp { p with flags := r.2 }, mem := memWrite s.mem a r.1 n }

/-- An 8-bit register command on byte 0 or byte 1 of a register: that byte gets the result, the other 56 bits keep their
value (R31, R32). -/
def ByteRegisterResult (i : Instr) (op : SpecOp) : Prop :=
  ∀ (s : State) (p : VP) (r : Fin 16), Ready s p →
    (AtReg s r 0 → exec i s =
      let x := p.regs.get r
      let d := op 8 (x.extractLsb' 0 8) p.flags
      regDone s p r (x.extractLsb' 8 56 ++ d.1) d.2) ∧
    (AtReg s r 1 → exec i s =
      let x := p.regs.get r
      let d := op 8 (x.extractLsb' 8 8) p.flags
      regDone s p r (x.extractLsb' 16 48 ++ d.1 ++ x.extractLsb' 0 8) d.2)

/-- A 16-bit register command: bits 15:0 get the result, bits 63:16 keep their value (R32). -/
def WordRegisterResult (i : Instr) (op : SpecOp) : Prop :=
  ∀ (s : State) (p : VP) (r : Fin 16), Ready s p → AtReg s r 0 → exec i s =
    let x := p.regs.get r
    let d := op 16 (x.extractLsb' 0 16) p.flags
    regDone s p r (x.extractLsb' 16 48 ++ d.1) d.2

/-- A 32-bit register command: bits 31:0 get the result, bits 63:32 become 0 (R126). -/
def DwordRegisterResult (i : Instr) (op : SpecOp) : Prop :=
  ∀ (s : State) (p : VP) (r : Fin 16), Ready s p → AtReg s r 0 → exec i s =
    let d := op 32 ((p.regs.get r).extractLsb' 0 32) p.flags
    regDone s p r (0#32 ++ d.1) d.2

/-- A 64-bit register command: the whole register gets the result. -/
def QwordRegisterResult (i : Instr) (op : SpecOp) : Prop :=
  ∀ (s : State) (p : VP) (r : Fin 16), Ready s p → AtReg s r 0 → exec i s =
    let d := op 64 (p.regs.get r) p.flags
    regDone s p r d.1 d.2

/-- A memory command with no other virtual processor to step in between, on any path that commits: plain, the misaligned
fallback, or atomic on a host that can. `cas` is the host's capability at the command's width. -/
def MemoryResult (i : Bool → Instr) (n : Nat) (cas : HostCaps → Bool) (op : SpecOp) : Prop :=
  ∀ (s : State) (p : VP) (a : Addr) (lock : Bool), Ready s p → AtMem s a → a.toNat + n ≤ 2 ^ 64 →
    Alone s s.port.vp → (lock = true → a.toNat % n = 0 → cas s.host = true) →
    exec (i lock) s = memDone s p a n (op (8 * n) (memRead s.mem a n) p.flags)

/-- A 16-bit memory command, which is never locked (R115). -/
def WordMemoryResult (i : Instr) (op : SpecOp) : Prop :=
  ∀ (s : State) (p : VP) (a : Addr), Ready s p → AtMem s a → a.toNat + 2 ≤ 2 ^ 64 → Alone s s.port.vp →
    exec i s = memDone s p a 2 (op 16 (memRead s.mem a 2) p.flags)

/-! ### Faults -/

/-- The state after `raise IllegalInstruction(code)` (R201). -/
def illegalTaken (s : State) (v : Nat) (p : VP) (code : IllegalCode) : State :=
  { s with vps := s.vps.set v { p with seq := .unsupportedTrap, fault := .illegal code } }

/-- The state after `raise InvariantViolation(code)` (R203). -/
def violationTaken (s : State) (v : Nat) (p : VP) (code : ViolationCode) : State :=
  { s with vps := s.vps.set v { p with seq := .abort, fault := .violation code }, abort := true }

/-- The table of R89: the code of the trap a word that selects no instruction raises, `UD_RESERVED` before `UD_SUBOPCODE`
(R128); `w / 2048` is the field `zero`,
`w / 256 % 8` is `entry`, `w / 128 % 2` is `wide`, `w % 8` is `reg`. -/
def reservedCode (w : CmdWord) : Option IllegalCode :=
  if w.toNat / 2048 ≠ 0 ∨ 5 ≤ w.toNat / 256 % 8 then some .UD_RESERVED
  else if w.toNat / 256 % 8 = 4 then
    if w.toNat / 128 % 2 = 1 then some .UD_RESERVED
    else if 2 ≤ w.toNat % 8 then some .UD_SUBOPCODE
    else none
  else none

/-! ### Frames -/

/-- What no command of virtual processor `v` changes: the other virtual processors, the host capabilities, the commands
still to execute, and of `v` the flags its family does not write (R29). -/
def CommonFrame (f : Family) (v : Nat) (p : VP) (s t : State) : Prop :=
  t.host = s.host ∧ t.port = s.port ∧ t.vps.length = s.vps.length ∧
  (∀ u, u ≠ v → t.vps[u]? = s.vps[u]?) ∧
  ∃ q, t.vps[v]? = some q ∧ q.cmds = p.cmds ∧
    (f = .NOT → q.flags = p.flags) ∧ (f = .INC ∨ f = .DEC → q.flags.CF = p.flags.CF)

/-- Every byte of memory but the `n` at `a` reads as before (R73). -/
def BytesOutsideKept (a : Addr) (n : Nat) (m m' : Memory) : Prop :=
  ∀ x, (x < a.toNat ∨ a.toNat + n ≤ x) → m'.read x = m.read x

/-! ### Steps of one virtual processor -/

/-- `k` steps of virtual processor `v` with no step of another in between. -/
def stepsOf (v : Nat) : Nat → State → Host.Outcome State Fault Refusal
  | 0, s => .next s
  | k + 1, s =>
    match stepVp v s with
    | .next t => stepsOf v k t
    | o => o

/-- The accesses a plain command in flight has still to make. -/
def accessesLeft (f : InFlight) : Nat :=
  match f.phase with
  | .reading todo _ => todo.length + f.width.bytes
  | .writing todo => todo.length
  | .casRead | .casSwap _ _ _ => 0

/-- Equal but for the free choices. -/
def SameButChoices (s t : State) : Prop :=
  t.vps = s.vps ∧ t.mem = s.mem ∧ t.abort = s.abort ∧ t.host = s.host ∧ t.port = s.port

/-- Equal but for the registers and flags of the virtual processors other than `v`. -/
def SameFor (v : Nat) (s t : State) : Prop :=
  t.mem = s.mem ∧ t.abort = s.abort ∧ t.host = s.host ∧ t.port = s.port ∧ t.script = s.script ∧ t.tick = s.tick ∧
  t.vps.length = s.vps.length ∧ t.vps[v]? = s.vps[v]? ∧
  ∀ (u : Nat) (p q : VP), s.vps[u]? = some p → t.vps[u]? = some q →
    q.fault = p.fault ∧ q.seq = p.seq ∧ q.inflight = p.inflight ∧ q.cmds = p.cmds

/-! ### Locked increments of one cell (R63) -/

/-- The commands of virtual processor `p` that have still to take effect. -/
def pending (p : VP) : Nat := p.cmds.length + (if p.inflight.isSome then 1 else 0)

/-- All of them. -/
def allPending (s : State) : Nat := (s.vps.map pending).sum

/-- Every command that is in flight or still to execute is a `LOCK INC` of width `w` on the aligned cell `a`, on a host
that has the compare-and-swap, and nothing has gone wrong. -/
def OnlyLockedIncrements (w : Width) (a : Addr) (s : State) : Prop :=
  s.coherent = true ∧ s.abort = false ∧ w ≠ .w16 ∧ a.toNat % w.bytes = 0 ∧ s.host.hasCas w = true ∧
  ∀ p ∈ s.vps, p.fault = .none ∧
    (∀ c ∈ p.cmds, c = ⟨encode (instrOf .INC w true false), ⟨true, a⟩⟩) ∧
    (∀ f, p.inflight = some f → f.family = .INC ∧ f.width = w ∧ f.addr = a ∧ f.lock = true)

end Sys2Proof.Claims

open Sys2Proof Sys2Proof.Machine Sys2Proof.Claims

/-! ### Encoding -/

/-- Decoding the encoded word of any instruction gives it back, both operand fields included (R81, R87). -/
def Obligations.DecodeOfEncodeIsTheInstruction : Prop := ∀ i : Instr, decode (encode i) = .ok i

/-- A word decodes to an instruction exactly when it matches that instruction's row of the opcode table and carries its
`lock` at bit 4 and its `isreg` at bit 3; so no word matches two rows, and an ignored bit changes nothing (R83, R87,
R88). -/
def Obligations.DecodeIsTheOpcodeTable : Prop :=
  ∀ (w : CmdWord) (i : Instr), decode w = .ok i ↔
    (w &&& i.rowMask = i.rowMatch ∧ i.lock = w.getLsbD 4 ∧ i.isreg = w.getLsbD 3)

/-- The decoder refuses exactly the words of the table of R89, each with its code, and reads an instruction from every
other (R88). A word that falls under two rows of the table gets `UD_RESERVED`: that is the order of R128, the spec's own
decision D14. -/
def Obligations.ReservedEncodingsDecodeToTheirCode : Prop :=
  ∀ w : CmdWord,
    (∀ code, decode w = .error code ↔ reservedCode w = some code) ∧ (reservedCode w = none ↔ ∃ i, decode w = .ok i)

/-- The multiplexed entry (R190): `reg = 0` is increment, `reg = 1` is decrement, every other value and the word form trap;
and after the choice the command is the byte-width INC or DEC with the same `lock`, `isreg` and payload. -/
def Obligations.MultiplexedEntryIsTheByteCommand : Prop :=
  (∀ w : CmdWord, w.toNat / 256 = 4 →
    let lock := w.getLsbD 4
    let isreg := w.getLsbD 3
    (w.toNat / 128 % 2 = 1 → decode w = .error .UD_RESERVED) ∧
    (w.toNat / 128 % 2 = 0 → w.toNat % 8 = 0 → decode w = .ok (.incdec8Inc lock isreg)) ∧
    (w.toNat / 128 % 2 = 0 → w.toNat % 8 = 1 → decode w = .ok (.incdec8Dec lock isreg)) ∧
    (w.toNat / 128 % 2 = 0 → 2 ≤ w.toNat % 8 → decode w = .error .UD_SUBOPCODE)) ∧
  (∀ (lock isreg : Bool) (s : State), exec (.incdec8Inc lock isreg) s = exec (.inc8 lock isreg) s ∧
    exec (.incdec8Dec lock isreg) s = exec (.dec8 lock isreg) s)

/-- Words written out from the decoding vectors of spec/95_test_vectors.md section 2. -/
def Obligations.SampleWordsDecode : Prop :=
  decode 0x006F#16 = .ok (.not8 false true) ∧ decode 0x02E8#16 = .ok (.inc64 false true) ∧
  decode 0x02F0#16 = .ok (.inc64 true false) ∧ decode 0x01A0#16 = .ok (.neg16 false false) ∧
  decode 0x0388#16 = .ok (.dec32 false true) ∧ decode 0x0460#16 = .ok (.incdec8Inc false false) ∧
  decode 0x0411#16 = .ok (.incdec8Dec true false) ∧ decode 0x040A#16 = .error .UD_SUBOPCODE ∧
  decode 0x0480#16 = .error .UD_RESERVED ∧ decode 0x8288#16 = .error .UD_RESERVED

/-! ### The operation functions -/

/-- `OPS[NOT]` at every width is `not_W` (R150), whatever the second operand. -/
def Obligations.NotOperation : Prop :=
  ∀ (w : Width) (v y : BitVec w.bits) (fin : Flags), ops .NOT w v y fin = notSpec w.bits v fin

/-- `OPS[NEG]` at every width is `neg_W` (R160), whatever the second operand; so `ZF` is set exactly when the operand is
zero, and exactly when `CF` is clear. -/
def Obligations.NegOperation : Prop :=
  ∀ (w : Width) (v y : BitVec w.bits) (fin : Flags),
    ops .NEG w v y fin = negSpec w.bits v fin ∧
    (ops .NEG w v y fin).2.ZF = decide (v = 0) ∧ (ops .NEG w v y fin).2.CF = !(ops .NEG w v y fin).2.ZF

/-- `OPS[INC]` at every width is `inc_W` (R170), whatever the second operand. -/
def Obligations.IncOperation : Prop :=
  ∀ (w : Width) (v y : BitVec w.bits) (fin : Flags), ops .INC w v y fin = incSpec w.bits v fin

/-- `OPS[DEC]` at every width is `dec_W` (R180), whatever the second operand. -/
def Obligations.DecOperation : Prop :=
  ∀ (w : Width) (v y : BitVec w.bits) (fin : Flags), ops .DEC w v y fin = decSpec w.bits v fin

/-- The contract of an operation function (R129): the result and the flags depend on the operand and the flags before, the
second operand on nothing; the result does not depend on the flags; NOT carries all six flags through, INC and DEC carry
`CF` through, and a flag that is written does not depend on the flags before. -/
def Obligations.OperationContract : Prop :=
  ∀ (f : Family) (w : Width) (v y : BitVec w.bits) (fin fin' : Flags),
    let a := ops f w v y fin
    let b := ops f w v 0 fin'
    a.1 = b.1 ∧ a = ops f w v 0 fin ∧ (f = .NOT → a.2 = fin) ∧ (f = .NEG → a.2 = b.2) ∧
    (f = .INC ∨ f = .DEC → a.2.CF = fin.CF ∧ { a.2 with CF := false } = { b.2 with CF := false })

/-- The identities of R134 between the four operations, as values, and its six corner values. -/
def Obligations.OperationIdentities : Prop :=
  ∀ (w : Width) (v : BitVec w.bits) (a b : Flags),
    (ops .NEG w v 0 a).1 = (ops .INC w (ops .NOT w v 0 a).1 0 b).1 ∧
    (ops .NOT w v 0 a).1 = (ops .DEC w (ops .NEG w v 0 a).1 0 b).1 ∧
    (ops .NOT w (ops .NOT w v 0 a).1 0 b).1 = v ∧ (ops .NEG w (ops .NEG w v 0 a).1 0 b).1 = v ∧
    (ops .DEC w (ops .INC w v 0 a).1 0 b).1 = v ∧
    (v.toNat = 2 ^ w.bits - 1 → (ops .INC w v 0 a).1.toNat = 0) ∧
    (v.toNat = 0 → (ops .DEC w v 0 a).1.toNat = 2 ^ w.bits - 1) ∧
    (v.toNat = 0 → (ops .NEG w v 0 a).1.toNat = 0) ∧
    (v.toNat = 2 ^ (w.bits - 1) → (ops .NEG w v 0 a).1.toNat = 2 ^ (w.bits - 1)) ∧
    (v.toNat = 0 → (ops .NOT w v 0 a).1.toNat = 2 ^ w.bits - 1) ∧
    (v.toNat = 2 ^ w.bits - 1 → (ops .NOT w v 0 a).1.toNat = 0)

/-- The packed layout of R28: packing writes the six flags at their bits and no other bit, and unpacking reads them
back. -/
def Obligations.PackedFlagsLayout : Prop :=
  ∀ (f : Flags) (word : BitVec 32),
    Flags.unpack (f.packInto word) = f ∧
    (f.packInto word).getLsbD 0 = f.CF ∧ (f.packInto word).getLsbD 2 = f.PF ∧
    (f.packInto word).getLsbD 4 = f.AF ∧ (f.packInto word).getLsbD 6 = f.ZF ∧
    (f.packInto word).getLsbD 7 = f.SF ∧ (f.packInto word).getLsbD 11 = f.OF ∧
    ∀ k, k ≠ 0 → k ≠ 2 → k ≠ 4 → k ≠ 6 → k ≠ 7 → k ≠ 11 → (f.packInto word).getLsbD k = word.getLsbD k

/-! ### Operand locations and memory -/

/-- A register location is the bits `[8*(off+n)-1 : 8*off]`: reading it gives those bits, writing it writes those and no
other (R31, R117). -/
def Obligations.RegisterLocationBits : Prop :=
  ∀ (x : Reg64) (off n : Nat) (v : BitVec (8 * n)), off + n ≤ 8 →
    (∀ k, k < 8 * n → (regSlice x off n).getLsbD k = x.getLsbD (8 * off + k)) ∧
    (∀ k, k < 64 → (regInsert x off n v).getLsbD k =
      if 8 * off ≤ k ∧ k < 8 * (off + n) then v.getLsbD (k - 8 * off) else x.getLsbD k)

/-- Memory is little-endian, a write is read back, touches its own bytes only, keeps the canonical form, and a narrower
read sees the low part of the value (R53, R66, R73). That memory is a list in canonical form is the model's choice
(log 2). -/
def Obligations.MemoryIsLittleEndian : Prop :=
  ∀ (m : Memory) (a : Addr) (n k : Nat) (v : BitVec (8 * n)), m.wf = true → a.toNat + n ≤ 2 ^ 64 →
    (memWrite m a v n).wf = true ∧
    (∀ j, j < n → (memWrite m a v n).read (a.toNat + j) = v.extractLsb' (8 * j) 8) ∧
    BytesOutsideKept a n m (memWrite m a v n) ∧
    (k ≤ n → memRead (memWrite m a v n) a k = v.extractLsb' 0 (8 * k))

/-- The compare-and-swap (R57): equal, it writes the desired value and answers true; different, it writes nothing and
answers false. -/
def Obligations.CompareAndSwap : Prop :=
  ∀ (m : Memory) (a : Addr) (n : Nat) (expected desired : BitVec (8 * n)),
    (memRead m a n = expected → memCas m a n expected desired = (true, memWrite m a desired n)) ∧
    (memRead m a n ≠ expected → memCas m a n expected desired = (false, m))

/-! ### What each instruction does to a register -/

/-- NOT8, NOT16, NOT32, NOT64 on a register execute and leave the complement (R151 to R154). -/
def Obligations.NotRegisterResults : Prop :=
  ByteRegisterResult (.not8 false true) notSpec ∧ WordRegisterResult (.not16 false true) notSpec ∧
  DwordRegisterResult (.not32 false true) notSpec ∧ QwordRegisterResult (.not64 false true) notSpec

/-- NEG8, NEG16, NEG32, NEG64 on a register execute and leave the negation and all six flags (R161 to R164). -/
def Obligations.NegRegisterResults : Prop :=
  ByteRegisterResult (.neg8 false true) negSpec ∧ WordRegisterResult (.neg16 false true) negSpec ∧
  DwordRegisterResult (.neg32 false true) negSpec ∧ QwordRegisterResult (.neg64 false true) negSpec

/-- INC8, INC16, INC32, INC64 on a register execute and leave the increment, five flags written (R171 to R174). -/
def Obligations.IncRegisterResults : Prop :=
  ByteRegisterResult (.inc8 false true) incSpec ∧ WordRegisterResult (.inc16 false true) incSpec ∧
  DwordRegisterResult (.inc32 false true) incSpec ∧ QwordRegisterResult (.inc64 false true) incSpec

/-- DEC8, DEC16, DEC32, DEC64 on a register execute and leave the decrement, five flags written (R181 to R184). -/
def Obligations.DecRegisterResults : Prop :=
  ByteRegisterResult (.dec8 false true) decSpec ∧ WordRegisterResult (.dec16 false true) decSpec ∧
  DwordRegisterResult (.dec32 false true) decSpec ∧ QwordRegisterResult (.dec64 false true) decSpec

/-- INCDEC8 /0 and INCDEC8 /1 on a register execute and leave what INC8 and DEC8 leave (R191, R192). -/
def Obligations.MultiplexedRegisterResults : Prop :=
  ByteRegisterResult (.incdec8Inc false true) incSpec ∧ ByteRegisterResult (.incdec8Dec false true) decSpec

/-! ### What each instruction does to memory -/

/-- NOT8, NOT16, NOT32, NOT64 on memory, locked or not, execute and leave the complement (R151 to R154). That
it is one step where no other virtual processor can step is the model's choice (log 6). -/
def Obligations.NotMemoryResults : Prop :=
  MemoryResult (.not8 · false) 1 HostCaps.cas8 notSpec ∧ WordMemoryResult (.not16 false false) notSpec ∧
  MemoryResult (.not32 · false) 4 HostCaps.cas32 notSpec ∧ MemoryResult (.not64 · false) 8 HostCaps.cas64 notSpec

/-- NEG8, NEG16, NEG32, NEG64 on memory, locked or not, execute and leave the negation (R161 to R164). That
it is one step where no other virtual processor can step is the model's choice (log 6). -/
def Obligations.NegMemoryResults : Prop :=
  MemoryResult (.neg8 · false) 1 HostCaps.cas8 negSpec ∧ WordMemoryResult (.neg16 false false) negSpec ∧
  MemoryResult (.neg32 · false) 4 HostCaps.cas32 negSpec ∧ MemoryResult (.neg64 · false) 8 HostCaps.cas64 negSpec

/-- INC8, INC16, INC32, INC64 on memory, locked or not, execute and leave the increment (R171 to R174). That
it is one step where no other virtual processor can step is the model's choice (log 6). -/
def Obligations.IncMemoryResults : Prop :=
  MemoryResult (.inc8 · false) 1 HostCaps.cas8 incSpec ∧ WordMemoryResult (.inc16 false false) incSpec ∧
  MemoryResult (.inc32 · false) 4 HostCaps.cas32 incSpec ∧ MemoryResult (.inc64 · false) 8 HostCaps.cas64 incSpec

/-- DEC8, DEC16, DEC32, DEC64 on memory, locked or not, execute and leave the decrement (R181 to R184). That
it is one step where no other virtual processor can step is the model's choice (log 6). -/
def Obligations.DecMemoryResults : Prop :=
  MemoryResult (.dec8 · false) 1 HostCaps.cas8 decSpec ∧ WordMemoryResult (.dec16 false false) decSpec ∧
  MemoryResult (.dec32 · false) 4 HostCaps.cas32 decSpec ∧ MemoryResult (.dec64 · false) 8 HostCaps.cas64 decSpec

/-- INCDEC8 /0 and INCDEC8 /1 on memory, locked or not, execute and leave what INC8 and DEC8 leave (R191, R192). That
it is one step where no other virtual processor can step is the model's choice (log 6). -/
def Obligations.MultiplexedMemoryResults : Prop :=
  MemoryResult (.incdec8Inc · false) 1 HostCaps.cas8 incSpec ∧ MemoryResult (.incdec8Dec · false) 1 HostCaps.cas8 decSpec

/-! ### Faults -/

/-- A lock at 16-bit width raises `IV_LOCK_16`, register or memory, whatever the payload, and changes nothing else
(R115): NOT16, NEG16, INC16, DEC16. -/
def Obligations.LockAt16BitsViolates : Prop :=
  ∀ (i : Instr) (s : State) (p : VP), i.width = .w16 → i.lock = true → Ready s p →
    exec i s = .next (violationTaken s s.port.vp p .IV_LOCK_16)

/-- A failed resolver raises `UD_RESOLVE` for every instruction, and changes nothing else; only a lock at 16-bit width
comes before it (R117; the order is the spec's decision D14 in R128). -/
def Obligations.FailedResolverTraps : Prop :=
  ∀ (i : Instr) (s : State) (p : VP), ¬(i.width = .w16 ∧ i.lock = true) → Ready s p →
    s.port.payload.resOk = false → exec i s = .next (illegalTaken s s.port.vp p .UD_RESOLVE)

/-- A lock with a register operand raises `IV_LOCK_REG` at 8, 32 and 64 bits, and changes nothing else (R118, the spec's
decision D12); at 16 bits the violation already raised is `IV_LOCK_16` (R115, R119, R128: the spec's decisions D13 and
D14). -/
def Obligations.LockOnRegisterViolates : Prop :=
  ∀ (i : Instr) (s : State) (p : VP) (r : Fin 16) (off : Nat), i.lock = true → i.isreg = true →
    Ready s p → off ≤ 1 → (off = 1 → i.width = .w8) → AtReg s r off →
    exec i s = .next (violationTaken s s.port.vp p (if i.width = .w16 then .IV_LOCK_16 else .IV_LOCK_REG))

/-- A lock on an aligned memory operand on a host without the compare-and-swap of that width raises `UD_NO_ATOMIC`, and
changes nothing else (R125). -/
def Obligations.IncapableHostTraps : Prop :=
  ∀ (i : Instr) (s : State) (p : VP) (a : Addr), i.width ≠ .w16 → i.lock = true → i.isreg = false → Ready s p →
    AtMem s a → a.toNat + i.width.bytes ≤ 2 ^ 64 → a.toNat % i.width.bytes = 0 →
    (i.width = .w8 → s.host.cas8 = false) → (i.width = .w32 → s.host.cas32 = false) →
    (i.width = .w64 → s.host.cas64 = false) →
    exec i s = .next (illegalTaken s s.port.vp p .UD_NO_ATOMIC)

/-- A command that ends in a fault leaves the state before it, with the sequencer state and the fault record of its virtual
processor and, for a violation, the abort latch; it has read no register, no flag and no byte of memory, so that with any
others it ends in the same fault; and no step of a command in flight, in the CAS loop or not, raises one (R206). -/
def Obligations.FaultReadsAndChangesNothing : Prop :=
  (∀ (i : Instr) (s t : State) (p q : VP), exec i s = .next t → s.vps[s.port.vp]? = some p →
    t.vps[s.port.vp]? = some q → q.fault ≠ .none →
    ((∃ code, t = illegalTaken s s.port.vp p code) ∨ (∃ code, t = violationTaken s s.port.vp p code)) ∧
    ∀ (regs : Vector Reg64 16) (flags : Flags) (m : Memory), ∃ t' q',
      exec i { s with mem := m, vps := s.vps.set s.port.vp { p with regs := regs, flags := flags } } = .next t' ∧
      t'.vps[s.port.vp]? = some q' ∧ q'.fault = q.fault) ∧
  (∀ (s t : State) (v : Nat) (p q : VP) (f : InFlight), s.vps[v]? = some p → p.inflight = some f →
    stepVp v s = .next t → t.vps[v]? = some q → q.fault = p.fault)

/-- While the abort latch is set no step is enabled, and a virtual processor with a fault record executes nothing
(R41, R208). That the stuck states are the faults `aborted` and `vpStopped` is the model's choice (log 11). -/
def Obligations.StuckAfterAbortOrFault : Prop :=
  (∀ s : State, s.abort = true → step s = .fault .aborted) ∧
  (∀ (i : Instr) (s : State) (p : VP), s.vps[s.port.vp]? = some p → s.abort = true → exec i s = .fault .aborted) ∧
  (∀ (i : Instr) (s : State) (p : VP), s.vps[s.port.vp]? = some p → s.abort = false → p.fault ≠ .none →
    exec i s = .fault .vpStopped) ∧
  (∀ (s s' : State) (v : Nat) (p : VP), s.nextVp = some (v, s') → s.vps[v]? = some p → p.fault = .none)

/-- A payload outside the resolver's contract gets no outcome (R84): a register byte range the limits of R31 do not
have, or a memory operand that wraps (R51; log 9). The register clause needs no lock premise, since it is found while
the operand is resolved; that it comes before `IV_LOCK_REG` is the model's choice (log 8). -/
def Obligations.PayloadOutsideContractRefused : Prop :=
  ∀ (i : Instr) (s : State) (p : VP), ¬(i.width = .w16 ∧ i.lock = true) → Ready s p → s.port.payload.resOk = true →
    (i.isreg = true →
      (s.port.payload.locRef.toNat / 128 ≠ 0 ∨ 2 ≤ s.port.payload.locRef.toNat / 16 % 8 ∨
        (s.port.payload.locRef.toNat / 16 % 8 = 1 ∧ i.width ≠ .w8)) →
      exec i s = .refused .payloadOutsideContract) ∧
    (i.isreg = false → 2 ^ 64 < s.port.payload.locRef.toNat + i.width.bytes → exec i s = .refused .operandWraps)

/-! ### Frames -/

/-- A command with a register operand changes no byte of memory, no other virtual processor, and of its own no register
but the one `loc_ref[3:0]` names and no flag its family does not write (R29, R32). -/
def Obligations.RegisterFormFrame : Prop :=
  ∀ (i : Instr) (s t : State) (p : VP), i.isreg = true → s.vps[s.port.vp]? = some p → exec i s = .next t →
    CommonFrame i.family s.port.vp p s t ∧ (∀ a, t.mem.read a = s.mem.read a) ∧
    ∃ q, t.vps[s.port.vp]? = some q ∧
      ∀ r : Fin 16, r.val ≠ s.port.payload.locRef.toNat % 16 → q.regs.get r = p.regs.get r

/-- A command with a memory operand changes no register of any virtual processor, no flag its family does not write, and
no byte of memory but the `n` bytes at `loc_ref` (R32, R73). -/
def Obligations.MemoryFormFrame : Prop :=
  ∀ (i : Instr) (s t : State) (p : VP), i.isreg = false → s.mem.wf = true → s.vps[s.port.vp]? = some p →
    exec i s = .next t →
    CommonFrame i.family s.port.vp p s t ∧ BytesOutsideKept s.port.payload.locRef i.width.bytes s.mem t.mem ∧
    ∃ q, t.vps[s.port.vp]? = some q ∧ q.regs = p.regs

/-- A later step of a memory command in flight has the same frame (R32, R73, R121, R122). -/
def Obligations.InFlightStepFrame : Prop :=
  ∀ (s t : State) (v : Nat) (p : VP) (f : InFlight), s.coherent = true → s.vps[v]? = some p → p.inflight = some f →
    stepVp v s = .next t →
    CommonFrame f.family v p s t ∧ BytesOutsideKept f.addr f.width.bytes s.mem t.mem ∧ t.abort = s.abort ∧
    ∃ q, t.vps[v]? = some q ∧ q.regs = p.regs

/-! ### The sequencer -/

/-- Path selection (R119): what a resolved command of either addressing mode does, by its lock intent, its operand, its
alignment and the host's capability; a 16-bit lock does not come so far, its violation has been raised (R115). -/
def Obligations.PathSelection : Prop :=
  ∀ (s : State) (v : Nat) (p : VP) (f : Family) (w : Width),
    (∀ (r : Fin 16) (off : Nat),
      s.runResolved v p f w false true (.regLoc r off) = s.runPlain v p f w false (.regLoc r off) ∧
      s.runResolved v p f w true true (.regLoc r off) = violationTaken s v p .IV_LOCK_REG) ∧
    (∀ a : Addr,
      s.runResolved v p f w false false (.memLoc a) = s.runPlain v p f w false (.memLoc a) ∧
      (w ≠ .w16 → s.runResolved v p f w true false (.memLoc a) =
        if a.toNat % w.bytes ≠ 0 then s.runPlain v p f w true (.memLoc a)
        else if s.host.hasCas w = true then s.runAtomic v p f w true a
        else illegalTaken s v p .UD_NO_ATOMIC)) ∧
    (w = .w16 → ∀ isreg : Bool, Ready s p →
      execute f w true isreg s = .next (violationTaken s s.port.vp p .IV_LOCK_16))

/-- A command in flight always has an enabled step, whatever the others do, while no abort is latched (R70): it can be
chosen, its step is taken, a plain command has one access less to make after it (R56, R244), and the CAS loop ends or goes
on. That it can be chosen is said through `script`, the model's choice (log 5). -/
def Obligations.CommandInFlightIsNeverStuck : Prop :=
  ∀ (s : State) (v : Nat) (p : VP) (f : InFlight), s.coherent = true → s.abort = false → s.vps[v]? = some p →
    p.inflight = some f →
    (∃ c s', State.nextVp { s with script := [c] } = some (v, s')) ∧
    ∃ t q, stepVp v s = .next t ∧ t.vps[v]? = some q ∧
      (p.seq = .directRmw →
        (accessesLeft f = 1 ∧ q.inflight = none) ∨
        ∃ f', q.inflight = some f' ∧ q.seq = .directRmw ∧ accessesLeft f' + 1 = accessesLeft f) ∧
      (p.seq = .atomicCasLoop → q.inflight = none ∨ q.seq = .atomicCasLoop)

/-- A command runs to completion (R132): a step of the machine either leaves a virtual processor that has a command in
flight as it is (another one stepped) or continues that same command, which raises no fault, while its later commands wait.
One handed to it meanwhile is refused as `vpBusy`, which is the model's choice (log 16). -/
def Obligations.CommandRunsToCompletion : Prop :=
  (∀ (s t : State) (v : Nat) (p : VP) (f : InFlight), s.vps[v]? = some p → p.inflight = some f → step s = .next t →
    t.vps[v]? = some p ∨
    ∃ q, t.vps[v]? = some q ∧ q.cmds = p.cmds ∧ q.fault = p.fault ∧ q.regs = p.regs ∧
      ((q.inflight = none ∧ q.seq = .idle) ∨ ∃ ph, q.inflight = some { f with phase := ph } ∧ q.seq = p.seq)) ∧
  (∀ (i : Instr) (s : State) (p : VP) (f : InFlight), s.coherent = true → s.abort = false →
    s.vps[s.port.vp]? = some p → p.inflight = some f → exec i s = .refused .vpBusy)

/-- With another virtual processor to step in between, a plain memory command begins with one byte read, any of its bytes:
the written choice `k` reads byte `k` and leaves the others to be read; the one read of a byte command computes its result
and flags and leaves the byte to be written (R56, R121, R244). That written choices come from `script` is log 5, that the
flags are written in the last read is log 15: the model's choices. -/
def Obligations.ContendedPlainCommandReadsOneByte : Prop :=
  ∀ (i : Instr) (s : State) (p : VP) (a : Addr), i.isreg = false → Ready s p → AtMem s a →
    a.toNat + i.width.bytes ≤ 2 ^ 64 → ¬Alone s s.port.vp →
    ¬(i.lock = true ∧ (i.width = .w16 ∨ a.toNat % i.width.bytes = 0)) →
    (∀ (k : Nat) (rest : List Nat), i.width ≠ .w8 → s.script = k :: rest → k < i.width.bytes →
      exec i s = .next { s with
        script := rest
        vps := s.vps.set s.port.vp { p with
          seq := .directRmw
          inflight := some ⟨i.family, i.width, a, i.lock,
            .reading ((List.range i.width.bytes).eraseIdx k) [(k, s.mem.read (a.toNat + k))]⟩ } }) ∧
    (i.width = .w8 →
      exec i s =
        let d := specOf i.family 8 (s.mem.read a.toNat) p.flags
        .next { s with
          vps := s.vps.set s.port.vp { p with
            flags := d.2
            seq := .directRmw
            inflight := some ⟨i.family, .w8, a, i.lock, .writing [(0, d.1)]⟩ } })

/-- A later byte read of a plain command reads byte `k` of the operand, and that byte only, as memory holds it in that step,
whatever was read before: so a read that races with writes may be torn (R56). The last one gives the operation on the value
assembled from the bytes, each as it was read, and no byte is read again (R121, R244). The choice is log 5, and that the
flags are written in the last read is log 15: the model's choices. -/
def Obligations.PlainReadStepReadsOneByte : Prop :=
  ∀ (s : State) (v : Nat) (p : VP) (f : InFlight) (todo : List Nat) (got : List (Nat × Byte)), s.coherent = true →
    s.vps[v]? = some p → p.inflight = some f → f.phase = .reading todo got →
    (∀ (c k : Nat) (rest : List Nat), 1 < todo.length → todo[c]? = some k → s.script = c :: rest →
      k < f.width.bytes ∧
      stepVp v s = .next { s with
        script := rest
        vps := s.vps.set v { p with
          inflight := some { f with
            phase := .reading (todo.eraseIdx c) ((k, s.mem.read (f.addr.toNat + k)) :: got) } } }) ∧
    (∀ k : Nat, todo = [k] →
      k < f.width.bytes ∧ ((k :: got.map Prod.fst).Perm (List.range f.width.bytes)) ∧
      ∃ x : BitVec f.width.bits,
        (∀ jb ∈ (k, s.mem.read (f.addr.toNat + k)) :: got, x.extractLsb' (8 * jb.1) 8 = jb.2) ∧
        let d := specOf f.family f.width.bits x p.flags
        stepVp v s = .next { s with
          vps := s.vps.set v { p with
            flags := d.2
            inflight := some { f with
              phase := .writing ((List.range f.width.bytes).map fun j => (j, d.1.extractLsb' (8 * j) 8)) } } })

/-- A byte write of a plain command stores that byte of the result at its place, and that byte only, into memory as it is in
that step, whatever another virtual processor has written in between; the last one ends the command (R56, R121, R244). The
choice is the model's (log 5). -/
def Obligations.PlainWriteStepWritesOneByte : Prop :=
  ∀ (s : State) (v : Nat) (p : VP) (f : InFlight) (todo : List (Nat × Byte)), s.coherent = true →
    s.vps[v]? = some p → p.inflight = some f → f.phase = .writing todo →
    (∀ (c : Nat) (kb : Nat × Byte) (rest : List Nat), 1 < todo.length → todo[c]? = some kb → s.script = c :: rest →
      kb.1 < f.width.bytes ∧
      stepVp v s = .next { s with
        script := rest
        mem := s.mem.write (f.addr.toNat + kb.1) kb.2
        vps := s.vps.set v { p with inflight := some { f with phase := .writing (todo.eraseIdx c) } } }) ∧
    (∀ kb : Nat × Byte, todo = [kb] →
      kb.1 < f.width.bytes ∧
      stepVp v s = .next { s with
        mem := s.mem.write (f.addr.toNat + kb.1) kb.2
        vps := s.vps.set v { p with seq := .idle, inflight := none } })

/-- With another virtual processor to step in between, a locked command on an aligned operand begins with an atomic read,
holds the value observed, the candidate and the local flags, and writes neither memory nor flags (R40, R122). -/
def Obligations.ContendedLockedCommandReadsAtomically : Prop :=
  ∀ (i : Instr) (s : State) (p : VP) (a : Addr), i.isreg = false → i.lock = true → i.width ≠ .w16 → Ready s p →
    AtMem s a → a.toNat + i.width.bytes ≤ 2 ^ 64 → ¬Alone s s.port.vp → a.toNat % i.width.bytes = 0 →
    s.host.hasCas i.width = true →
    exec i s =
      let old := memRead s.mem a i.width.bytes
      let d := specOf i.family i.width.bits old p.flags
      .next { s with
        vps := s.vps.set s.port.vp { p with
          seq := .atomicCasLoop
          inflight := some ⟨i.family, i.width, a, true,
            .casSwap (old.setWidth 64) (d.1.setWidth 64) d.2⟩ } }

/-- The compare-and-swap step of a locked command: if the cell still holds the value observed, the cell gets the operation
applied to it, the flags are those of the operation on that value, and the command has ended; else memory and flags are
unchanged and the next step reads afresh (R122, R123, R238, R240). -/
def Obligations.SwapCommitsOnceFromTheWinningCandidate : Prop :=
  ∀ (s : State) (v : Nat) (p : VP) (f : InFlight) (old cand : BitVec 64) (lf : Flags), s.coherent = true →
    s.vps[v]? = some p → p.inflight = some f → f.phase = .casSwap old cand lf →
    let cur := memRead s.mem f.addr f.width.bytes
    let d := specOf f.family f.width.bits cur p.flags
    (cur.setWidth 64 = old → stepVp v s = .next { s with
      mem := memWrite s.mem f.addr d.1 f.width.bytes
      vps := s.vps.set v { p with flags := d.2, seq := .idle, inflight := none } }) ∧
    (cur.setWidth 64 ≠ old → stepVp v s = .next { s with
      vps := s.vps.set v { p with inflight := some { f with phase := .casRead } } })

/-- A plain memory command run through with no step of another virtual processor in between leaves, after its `2n` byte
steps in any order, what the whole read-modify-write leaves (R121, R133, R244). It is the model's ground for log 6. -/
def Obligations.PlainBytesInAnyOrderMakeTheWholeCommand : Prop :=
  ∀ (i : Instr) (s : State) (p : VP) (a : Addr), i.isreg = false → s.mem.wf = true → Ready s p → p.inflight = none →
    AtMem s a → a.toNat + i.width.bytes ≤ 2 ^ 64 → ¬Alone s s.port.vp →
    ¬(i.lock = true ∧ (i.width = .w16 ∨ a.toNat % i.width.bytes = 0)) →
    ∃ t u, exec i s = .next t ∧ stepsOf s.port.vp (2 * i.width.bytes - 1) t = .next u ∧
      let d := specOf i.family i.width.bits (memRead s.mem a i.width.bytes) p.flags
      SameButChoices { s with
        mem := memWrite s.mem a d.1 i.width.bytes
        vps := s.vps.set s.port.vp { p with flags := d.2 } } u

/-- A locked aligned command run through with no step of another virtual processor in between ends with its first
compare-and-swap and leaves what one iteration leaves (R122, R133, R244). It is the model's ground for log 6. -/
def Obligations.LockedCommandAloneTakesOneIteration : Prop :=
  ∀ (i : Instr) (s : State) (p : VP) (a : Addr), i.isreg = false → i.lock = true → i.width ≠ .w16 → Ready s p →
    p.inflight = none → AtMem s a → a.toNat + i.width.bytes ≤ 2 ^ 64 → ¬Alone s s.port.vp →
    a.toNat % i.width.bytes = 0 → s.host.hasCas i.width = true →
    ∃ t, exec i s = .next t ∧ stepVp s.port.vp t =
      let d := specOf i.family i.width.bits (memRead s.mem a i.width.bytes) p.flags
      .next { s with
        mem := memWrite s.mem a d.1 i.width.bytes
        vps := s.vps.set s.port.vp { p with flags := d.2 } }

/-- What a command does and where it leaves the sequencer is what the transition table says, row by row (R127).
First, a command handed over: three transitions from `IDLE` reach a trap or the abort, where the sequencer stays, or a
commit path, where it stays while the command is in flight; a command that ends in this step leaves it where `DONE` leads.
Second, a register command: `DIRECT_RMW` leads either through `ZERO_EXTEND`, and then the upper half of the register is
zero, or to `DONE`, and then a result narrower than the register leaves the upper half alone.
Third, a step of a memory command in flight: `DIRECT_RMW` leads to `DONE` when the last byte is written, and
`ATOMIC_CAS_LOOP` to `DONE` or back to itself by the outcome of the swap.
Where the sequencer rests between steps is the model's reading (log 14), and that a memory command takes one step where no
other virtual processor can step is the model's choice (log 6). The row for a reserved encoding is
`StepTrapsOnReservedEncoding`. -/
def Obligations.SequencerFollowsTheTransitionTable : Prop :=
  (∀ (i : Instr) (s t : State) (p q : VP) (casOk : Bool), Ready s p → exec i s = .next t →
    t.vps[s.port.vp]? = some q →
    let facts : CmdFacts := ⟨i.width, i.lock, i.isreg, s.port.payload.resOk,
      decide (s.port.payload.locRef.toNat % i.width.bytes = 0), s.host.hasCas i.width⟩
    let reached := facts.next casOk (facts.next casOk (facts.next casOk .idle))
    (reached = .unsupportedTrap ∨ reached = .abort ∨ reached = .directRmw ∨ reached = .atomicCasLoop) ∧
    (reached = .unsupportedTrap ∨ reached = .abort → q.seq = reached ∧ facts.next casOk reached = reached) ∧
    (reached = .directRmw ∨ reached = .atomicCasLoop →
      q.seq = if i.isreg = true ∨ s.quiet s.port.vp = true then facts.next casOk .done else reached)) ∧
  (∀ (i : Instr) (s t : State) (p q : VP) (r : Fin 16) (off : Nat) (aligned hostCas casOk : Bool), i.isreg = true →
    i.lock = false → Ready s p → off ≤ 1 → (off = 1 → i.width = .w8) → AtReg s r off → exec i s = .next t →
    t.vps[s.port.vp]? = some q →
    let facts : CmdFacts := ⟨i.width, false, true, true, aligned, hostCas⟩
    let after := facts.next casOk .directRmw
    (after = .zeroExtend ∧ facts.next casOk after = .done ∧ (q.regs.get r).extractLsb' 32 32 = 0) ∨
    (after = .done ∧ (i.width ≠ .w64 → (q.regs.get r).extractLsb' 32 32 = (p.regs.get r).extractLsb' 32 32))) ∧
  (∀ (s t : State) (v : Nat) (p q : VP) (f : InFlight), s.coherent = true → s.vps[v]? = some p →
    p.inflight = some f → stepVp v s = .next t → t.vps[v]? = some q →
    let facts : CmdFacts := ⟨f.width, f.lock, false, true, decide (f.addr.toNat % f.width.bytes = 0),
      s.host.hasCas f.width⟩
    (p.seq = .directRmw → ∀ casOk, facts.next casOk .directRmw = .done ∧
      q.seq = if q.inflight.isSome = true then .directRmw else facts.next casOk .done) ∧
    (f.phase = .casRead → q.seq = .atomicCasLoop ∧ q.inflight.isSome = true) ∧
    (∀ (old cand : BitVec 64) (lf : Flags), f.phase = .casSwap old cand lf →
      let casOk := decide ((memRead s.mem f.addr f.width.bytes).setWidth 64 = old)
      let after := facts.next casOk .atomicCasLoop
      (after = .done ∧ q.seq = facts.next casOk after ∧ q.inflight = none) ∨
      (after = .atomicCasLoop ∧ q.seq = after ∧ q.inflight = some { f with phase := .casRead })))

/-! ### The step -/

/-- The step of a virtual processor that has no command in flight is its next command, taken off its list, handed to the
block, and executed as the decoder reads it (R33, R80). The list and the port are the model's (logs 12, 13). -/
def Obligations.StepRunsTheDecodedInstruction : Prop :=
  ∀ (s s' : State) (v : Nat) (p : VP) (c : Command) (rest : List Command) (i : Instr), s.abort = false →
    s.nextVp = some (v, s') → s'.vps[v]? = some p → p.inflight = none → p.cmds = c :: rest → decode c.word = .ok i →
    step s = exec i { s' with vps := s'.vps.set v { p with cmds := rest }, port := ⟨v, c.payload⟩ }

/-- A reserved encoding raises the trap the table of R89 gives it, in the step that takes it off the list, before any
register, flag or byte of memory is read or written, whatever its payload. Which code a word under two rows gets is the
order of R128, the spec's decision D14; the list and the port are the model's choices (logs 12, 13). -/
def Obligations.StepTrapsOnReservedEncoding : Prop :=
  ∀ (s s' : State) (v : Nat) (p : VP) (c : Command) (rest : List Command) (code : IllegalCode), s.abort = false →
    s.nextVp = some (v, s') → s'.vps[v]? = some p → p.inflight = none → p.cmds = c :: rest →
    reservedCode c.word = some code →
    step s = .next (illegalTaken { s' with port := ⟨v, c.payload⟩ } v { p with cmds := rest } code)

/-- The schedule is free and fair to no one: only a virtual processor with a step to take is chosen, choosing changes
nothing but the free choices, every one that has a step can be chosen, and where there is one only it is (R12). That
choices come from `script` and then from `Config.freeChoice` is the model's choice (log 5). -/
def Obligations.ScheduleIsFree : Prop :=
  ∀ s : State,
    (∀ v s', s.nextVp = some (v, s') → SameButChoices s s' ∧
      ∃ p, s.vps[v]? = some p ∧ p.fault = .none ∧ (p.inflight ≠ none ∨ p.cmds ≠ [])) ∧
    (∀ (v : Nat) (p : VP), s.vps[v]? = some p → p.fault = .none → (p.inflight ≠ none ∨ p.cmds ≠ []) →
      ∃ c s', State.nextVp { s with script := [c] } = some (v, s')) ∧
    (∀ (v : Nat) (p : VP), s.vps[v]? = some p → p.fault = .none → (p.inflight ≠ none ∨ p.cmds ≠ []) → Alone s v →
      s.nextVp = some (v, s))

/-- In every coherent state the run has ended exactly when `step` stops with `aborted` or `runEnded` (R41, R245); with
nothing left to do and no abort it stops with `runEnded`; and while the run has not ended `step` answers a next state or
refuses a payload outside the resolver's contract (R84, R51), and stops in no other way. The names of the stops are the
model's choices (logs 8, 9, 11). -/
def Obligations.RunHasEndedExactlyWhenAbortedOrRunEnded : Prop :=
  ∀ s : State, s.coherent = true →
    (s.ended = true ↔ (step s = .fault .aborted ∨ step s = .fault .runEnded)) ∧
    ((∀ p ∈ s.vps, p.fault ≠ .none ∨ (p.inflight = none ∧ p.cmds = [])) → s.abort = false →
      step s = .fault .runEnded) ∧
    (s.ended = false →
      (∃ t, step s = .next t) ∨ step s = .refused .payloadOutsideContract ∨ step s = .refused .operandWraps)

/-- A word placed for the next step is executed by it, by virtual processor 0, with the payload `res_ok = 1`,
`loc_ref = 0`; if it decodes to an instruction, the step is `exec` of it at that state. How a word is placed is the
model's choice (log 13). -/
def Obligations.PlacedWordIsExecutedNext : Prop :=
  ∀ (s : State) (p : VP) (others : List VP) (w : CmdWord) (i : Instr), s.vps = p :: others → decode w = .ok i →
    ∃ t, step (s.withFetchWord 16 w.toNat) = exec i t ∧ Ready t { p with fault := .none, seq := .idle, inflight := none } ∧
      t.port = ⟨0, ⟨true, 0⟩⟩ ∧ t.mem = s.mem ∧ t.host = s.host ∧ t.vps.tail = others

/-! ### Invariants and privacy -/

/-- Every step keeps the coherence of the machine: the canonical form of memory, the sequencer states with their transient
state and fault records, the CAS temporaries with the value observed, the abort latch with the violations. -/
def Obligations.StepKeepsCoherence : Prop :=
  ∀ s t : State, s.coherent = true → step s = .next t → t.coherent = true

/-- Every launch with at least one virtual processor and a canonical memory is coherent, `State.reset` among them,
whose registers, flags, memory and number of virtual processors are the model's choices (logs 1, 2, 3). -/
def Obligations.LaunchIsCoherent : Prop :=
  (∀ init : Init, init.vps ≠ [] → init.mem.wf = true → (State.launch init).coherent = true) ∧
  State.reset.coherent = true

/-- Reset leaves every sequencer idle, no temporaries, no fault record, no abort, and the registers, flags, memory and
host capabilities of the launch state, whatever they are (R44, R230). -/
def Obligations.ResetLeavesTheLaunchState : Prop :=
  ∀ init : Init,
    (State.launch init).abort = false ∧ (State.launch init).mem = init.mem ∧ (State.launch init).host = init.host ∧
    (State.launch init).vps.length = init.vps.length ∧
    ∀ (v : Nat) (regs : Vector Reg64 16) (flags : Flags) (cmds : List Command), init.vps[v]? = some (regs, flags, cmds) →
      (State.launch init).vps[v]? = some (VP.mk regs flags .none .idle none cmds)

/-- No step changes a fault record that is not `none`, nor anything else of its virtual processor; the host capabilities
and the number of virtual processors never change (R6, R42, R208). -/
def Obligations.FaultRecordsAndConfigurationStay : Prop :=
  ∀ s t : State, step s = .next t →
    t.host = s.host ∧ t.vps.length = s.vps.length ∧
    ∀ (v : Nat) (p : VP), s.vps[v]? = some p → p.fault ≠ .none → t.vps[v]? = some p

/-- A step changes the private state of one virtual processor at most (R20, R21, R30, R215). -/
def Obligations.StepChangesOneVirtualProcessor : Prop :=
  ∀ s t : State, step s = .next t → ∃ v : Nat, ∀ u : Nat, u ≠ v → t.vps[u]? = s.vps[u]?

/-- What a step of a virtual processor does to memory, to itself and to the shared state does not depend on the registers
and flags of the others (R20, R21, R30). -/
def Obligations.RegistersAndFlagsArePrivate : Prop :=
  ∀ (v : Nat) (s s' : State), SameFor v s s' →
    match stepVp v s, stepVp v s' with
    | .next t, .next t' => SameFor v t t'
    | .fault a, .fault b => a = b
    | .refused a, .refused b => a = b
    | _, _ => False

/-! ### Concurrency -/

/-- No update is lost (the source's sentence in R63; the step granularity is log 7): while every command in flight or still
to execute is a `LOCK INC` of one width on one aligned cell, every step keeps the cell's value plus the number of those
commands, modulo `2^W`, and keeps the premise; so when none is left, the cell holds its initial value plus the number of
commands. -/
def Obligations.LockedIncrementsLoseNoUpdate : Prop :=
  ∀ (w : Width) (a : Addr) (s t : State), OnlyLockedIncrements w a s → step s = .next t →
    OnlyLockedIncrements w a t ∧
    memRead t.mem a w.bytes + BitVec.ofNat w.bits (allPending t) =
      memRead s.mem a w.bytes + BitVec.ofNat w.bits (allPending s)

/-- The misaligned fallback is reachable, faults nowhere, and can lose an update (R63, R233): two virtual processors each
take one `LOCK INC32` on the same misaligned cell holding 0, and on some schedule it ends as 1. -/
def Obligations.MisalignedLockedIncrementsCanLoseAnUpdate : Prop :=
  ∃ (s t : State), s.coherent = true ∧
    s.vps.map VP.cmds = [[⟨0x0290#16, ⟨true, 0x1001#64⟩⟩], [⟨0x0290#16, ⟨true, 0x1001#64⟩⟩]] ∧ s.mem = [] ∧
    Host.Core.run Sys2Proof.core 16 s = .next t ∧ t.endedWell = true ∧ memRead t.mem 0x1001#64 4 = 1#32

/-- A torn read is reachable (R56, R233): two virtual processors each take one `LOCK INC32` on the same misaligned cell
holding `0xFF`; one reads byte 0 before the other's writes and the other bytes after them, so it sees `0x1FF`, a value no
write stored, and on some schedule the cell ends as `0x200`. -/
def Obligations.MisalignedLockedIncrementsCanReadATornValue : Prop :=
  ∃ (s t : State), s.coherent = true ∧
    s.vps.map VP.cmds = [[⟨0x0290#16, ⟨true, 0x1001#64⟩⟩], [⟨0x0290#16, ⟨true, 0x1001#64⟩⟩]] ∧
    s.mem = [(0x1001, 0xFF#8)] ∧ Host.Core.run Sys2Proof.core 16 s = .next t ∧ t.endedWell = true ∧
    memRead t.mem 0x1001#64 4 = 0x200#32
end

