-- ==== Sys2Proof/Laws/Memory.lean ====
section
/-! SUPPORT. The laws of guest memory: the canonical form is kept, a read after a write, equal reads make equal
memories, and the multi-byte accesses over them (spec/20_memory.md R53, R57, R66, R73). -/

namespace Sys2Proof.Machine

/-! ### The canonical form -/

theorem Memory.wf_iff (m : Memory) :
    m.wf = true ↔ (∀ c ∈ m, c.1 < 2 ^ 64 ∧ c.2 ≠ Config.blankByte) ∧ (m.map Prod.fst).Pairwise (· < ·) := by
  simp [Memory.wf]

theorem Memory.wf_cons (c : Host.Cell) (m : Memory) :
    Memory.wf (c :: m) = true ↔
      c.1 < 2 ^ 64 ∧ c.2 ≠ Config.blankByte ∧ (∀ d ∈ m, c.1 < d.1) ∧ m.wf = true := by
  simp only [Memory.wf_iff, List.mem_cons, forall_eq_or_imp, List.map_cons, List.pairwise_cons, List.mem_map,
    forall_exists_index, and_imp, forall_apply_eq_imp_iff₂]
  tauto

theorem Memory.wf_nil : Memory.wf [] = true := rfl

/-- An address below every listed one reads as the blank byte. -/
theorem Memory.read_below {m : Memory} {a : Nat} (h : ∀ d ∈ m, a < d.1) : m.read a = Config.blankByte := by
  cases m with
  | nil => rfl
  | cons c m => simp [Memory.read, h c (by simp)]

/-- Every address that a write leaves listed is the written one or was listed. -/
theorem Memory.mem_write {m : Memory} {a : Nat} {b : Byte} {d : Host.Cell} (h : d ∈ m.write a b) :
    d = (a, b) ∨ d ∈ m := by
  induction m with
  | nil => unfold Memory.write at h; split at h <;> simp_all
  | cons c m ih =>
    unfold Memory.write at h
    split at h
    · split at h
      · exact .inr h
      · simpa using h
    · split at h
      · split at h
        · exact .inr (List.mem_cons_of_mem _ h)
        · rcases List.mem_cons.1 h with h | h
          · exact .inl h
          · exact .inr (List.mem_cons_of_mem _ h)
      · rcases List.mem_cons.1 h with h | h
        · exact .inr (by simp [h])
        · rcases ih h with h | h
          · exact .inl h
          · exact .inr (List.mem_cons_of_mem _ h)

/-- Storing a byte keeps the canonical form. -/
theorem Memory.write_wf {m : Memory} (hm : m.wf = true) {a : Nat} (ha : a < 2 ^ 64) (b : Byte) :
    (m.write a b).wf = true := by
  induction m with
  | nil =>
    unfold Memory.write
    split
    · exact hm
    · rename_i hb
      exact (Memory.wf_cons _ _).2 ⟨ha, hb, by simp, rfl⟩
  | cons c m ih =>
    obtain ⟨h1, h2, h3, h4⟩ := (Memory.wf_cons c m).1 hm
    unfold Memory.write
    split
    · split
      · exact hm
      · rename_i hlt hb
        refine (Memory.wf_cons _ _).2 ⟨ha, hb, ?_, hm⟩
        intro d hd
        rcases List.mem_cons.1 hd with rfl | hd
        · exact hlt
        · exact Nat.lt_trans hlt (h3 d hd)
    · split
      · split
        · exact h4
        · rename_i _ he hb
          exact (Memory.wf_cons _ _).2 ⟨ha, hb, fun d hd => he ▸ h3 d hd, h4⟩
      · refine (Memory.wf_cons _ _).2 ⟨h1, h2, ?_, ih h4⟩
        intro d hd
        rcases Memory.mem_write hd with rfl | hd
        · simp only; omega
        · exact h3 d hd

/-! ### Read after write -/

/-- A read after a write to the same address gives the byte written. -/
theorem Memory.read_write_same {m : Memory} (hm : m.wf = true) (a : Nat) (b : Byte) : (m.write a b).read a = b := by
  induction m with
  | nil => unfold Memory.write; split <;> simp_all [Memory.read]
  | cons c m ih =>
    obtain ⟨h1, h2, h3, h4⟩ := (Memory.wf_cons c m).1 hm
    unfold Memory.write
    split
    · split
      · simp_all [Memory.read]
      · simp [Memory.read]
    · split
      · rename_i he
        split
        · rename_i hb
          rw [Memory.read_below (fun d hd => he ▸ h3 d hd), hb]
        · simp [Memory.read]
      · simp_all [Memory.read]

/-- A write leaves every other address alone (R66). -/
theorem Memory.read_write_other {m : Memory} (hm : m.wf = true) {a x : Nat} (h : x ≠ a) (b : Byte) :
    (m.write a b).read x = m.read x := by
  induction m with
  | nil => unfold Memory.write; split <;> simp_all [Memory.read]
  | cons c m ih =>
    obtain ⟨h1, h2, h3, h4⟩ := (Memory.wf_cons c m).1 hm
    unfold Memory.write
    split
    · split
      · rfl
      · by_cases hx : x < a
        · simp [Memory.read, hx, show x < c.1 by omega]
        · simp [Memory.read, hx, h]
    · split
      · rename_i he
        subst he
        split
        · by_cases hx : x < c.1
          · rw [Memory.read_below (fun d hd => Nat.lt_trans hx (h3 d hd))]; simp [Memory.read, hx]
          · simp [Memory.read, hx, h]
        · simp [Memory.read, h]
      · by_cases hx : x < c.1
        · simp [Memory.read, hx]
        · simp [Memory.read, hx, ih h4]

/-- Canonical memories with equal reads are equal. -/
theorem Memory.ext_of_wf {m m' : Memory} (hm : m.wf = true) (hm' : m'.wf = true)
    (h : ∀ a, m.read a = m'.read a) : m = m' := by
  induction m generalizing m' with
  | nil =>
    cases m' with
    | nil => rfl
    | cons c m' =>
      have := ((Memory.wf_cons c m').1 hm').2.1
      have h := h c.1
      simp [Memory.read] at h
      exact absurd h.symm this
  | cons c m ih =>
    obtain ⟨-, h2, h3, h4⟩ := (Memory.wf_cons c m).1 hm
    cases m' with
    | nil =>
      have h := h c.1
      simp [Memory.read] at h
      exact absurd h h2
    | cons d m' =>
      obtain ⟨-, g2, g3, g4⟩ := (Memory.wf_cons d m').1 hm'
      have hlt : c.1 = d.1 := by
        rcases Nat.lt_trichotomy c.1 d.1 with hl | he | hl
        · have h := h c.1
          simp [Memory.read, hl] at h
          exact absurd h h2
        · exact he
        · have h := h d.1
          simp [Memory.read, hl] at h
          exact absurd h.symm g2
      have hval : c.2 = d.2 := by simpa [Memory.read, hlt] using h c.1
      have hcd : c = d := Prod.ext hlt hval
      subst hcd
      congr 1
      refine ih h4 g4 fun a => ?_
      rcases Nat.lt_trichotomy a c.1 with hl | he | hl
      · rw [Memory.read_below fun e he => Nat.lt_trans hl (h3 e he), Memory.read_below fun e he => Nat.lt_trans hl (g3 e he)]
      · rw [Memory.read_below fun e hm => he ▸ h3 e hm, Memory.read_below fun e hm => he ▸ g3 e hm]
      · have h := h a
        simpa [Memory.read, show ¬ a < c.1 by omega, show a ≠ c.1 by omega] using h

/-! ### The bytes of an operand -/

theorem byteAddr_lt (addr : Addr) (k : Nat) : byteAddr addr k < 2 ^ 64 := BitVec.isLt _

/-- Where the operand does not wrap, byte `k` stands at `addr + k` (R50). -/
theorem byteAddr_eq {addr : Addr} {n k : Nat} (h : addr.toNat + n ≤ 2 ^ 64) (hk : k < n) :
    byteAddr addr k = addr.toNat + k := by
  simp only [byteAddr, BitVec.toNat_add, BitVec.toNat_ofNat]
  omega

theorem memWrite_wf {W : Nat} {m : Memory} (hm : m.wf = true) (addr : Addr) (v : BitVec W) (n : Nat) :
    (memWrite m addr v n).wf = true := by
  induction n with
  | zero => exact hm
  | succ n ih => exact Memory.write_wf ih (byteAddr_lt _ _) _

/-- A write of `n` bytes leaves every other byte alone (R73). -/
theorem read_memWrite_outside {W : Nat} {m : Memory} (hm : m.wf = true) {addr : Addr} (v : BitVec W) {n a : Nat}
    (h : ∀ k < n, a ≠ byteAddr addr k) : (memWrite m addr v n).read a = m.read a := by
  induction n with
  | zero => rfl
  | succ n ih =>
    rw [memWrite, Memory.read_write_other (memWrite_wf hm _ _ _) (h n (by omega)), ih fun k hk => h k (by omega)]

/-- Byte `k` of the operand after a write is byte `k` of the value (R53). -/
theorem read_memWrite_inside {W : Nat} {m : Memory} (hm : m.wf = true) {addr : Addr} (v : BitVec W) {n k : Nat}
    (h : addr.toNat + n ≤ 2 ^ 64) (hk : k < n) : (memWrite m addr v n).read (byteAddr addr k) = byteOf v k := by
  induction n with
  | zero => omega
  | succ n ih =>
    by_cases he : k = n
    · subst he; exact Memory.read_write_same (memWrite_wf hm _ _ _) _ _
    · have : byteAddr addr k ≠ byteAddr addr n := by
        rw [byteAddr_eq h hk, byteAddr_eq h (Nat.lt_succ_self n)]; omega
      rw [memWrite, Memory.read_write_other (memWrite_wf hm _ _ _) this, ih (by omega) (by omega)]

/-- A multi-byte read looks at its own bytes only. -/
theorem memRead_congr {m m' : Memory} {addr : Addr} {n : Nat}
    (h : ∀ k < n, m.read (byteAddr addr k) = m'.read (byteAddr addr k)) : memRead m addr n = memRead m' addr n := by
  have : littleEndianSum m addr n = littleEndianSum m' addr n := by
    induction n with
    | zero => rfl
    | succ n ih => rw [littleEndianSum, littleEndianSum, ih fun k hk => h k (by omega), h n (by omega)]
  rw [memRead, memRead, this]

theorem byteOf_toNat {W : Nat} (v : BitVec W) (k : Nat) : (byteOf v k).toNat = v.toNat / 2 ^ (8 * k) % 2 ^ 8 := by
  simp [byteOf, BitVec.extractLsb'_toNat, Nat.shiftRight_eq_div_pow]

/-- The little-endian sum of the bytes of a value is the value's low part (R53). -/
theorem littleEndianSum_of_bytes {W : Nat} {m : Memory} {addr : Addr} {v : BitVec W} {n : Nat}
    (h : ∀ k < n, m.read (byteAddr addr k) = byteOf v k) : littleEndianSum m addr n = v.toNat % 2 ^ (8 * n) := by
  induction n with
  | zero => simp [littleEndianSum, Nat.mod_one]
  | succ n ih =>
    rw [littleEndianSum, ih fun k hk => h k (by omega), h n (by omega), byteOf_toNat, Nat.mul_succ,
      Nat.pow_add, Nat.mod_mul, Nat.mul_comm (2 ^ (8 * n))]

/-- A read after a write of the same bytes gives the value written (R53). -/
theorem memRead_memWrite {m : Memory} (hm : m.wf = true) {addr : Addr} {n : Nat} (v : BitVec (8 * n))
    (h : addr.toNat + n ≤ 2 ^ 64) : memRead (memWrite m addr v n) addr n = v := by
  rw [memRead, littleEndianSum_of_bytes (v := v) fun k hk => read_memWrite_inside hm v h hk]
  apply BitVec.eq_of_toNat_eq
  simp [Nat.mod_eq_of_lt v.isLt]

/-- What a compare-and-swap can do (R57). -/
theorem memCas_cases (m : Memory) (addr : Addr) (n : Nat) (e d : BitVec (8 * n)) :
    (memRead m addr n = e ∧ memCas m addr n e d = (true, memWrite m addr d n)) ∨
      (memRead m addr n ≠ e ∧ memCas m addr n e d = (false, m)) := by
  by_cases h : memRead m addr n = e <;> simp [memCas, h]

/-- A compare-and-swap keeps the canonical form. -/
theorem memCas_wf {m : Memory} (hm : m.wf = true) (addr : Addr) (n : Nat) (e d : BitVec (8 * n)) :
    (memCas m addr n e d).2.wf = true := by
  rcases memCas_cases m addr n e d with ⟨-, h⟩ | ⟨-, h⟩ <;> rw [h]
  · exact memWrite_wf hm _ _ _
  · exact hm

end Sys2Proof.Machine
end

