-- ==== Sys2Proof/Laws/State.lean ====
section
/-! SUPPORT. What each named update does to each field of State and VP, once. -/

namespace Sys2Proof.Machine

variable (s : State) (v : Nat) (p : VP) (m : Memory)

/-! ### State.setVp -/

@[simp] theorem State.setVp_vps : (s.setVp v p).vps = s.vps.set v p := rfl
@[simp] theorem State.setVp_mem : (s.setVp v p).mem = s.mem := rfl
@[simp] theorem State.setVp_abort : (s.setVp v p).abort = s.abort := rfl
@[simp] theorem State.setVp_host : (s.setVp v p).host = s.host := rfl
@[simp] theorem State.setVp_port : (s.setVp v p).port = s.port := rfl
@[simp] theorem State.setVp_script : (s.setVp v p).script = s.script := rfl
@[simp] theorem State.setVp_tick : (s.setVp v p).tick = s.tick := rfl

/-! ### State.commit -/

@[simp] theorem State.commit_vps : (s.commit v p m).vps = s.vps.set v p := rfl
@[simp] theorem State.commit_mem : (s.commit v p m).mem = m := rfl
@[simp] theorem State.commit_abort : (s.commit v p m).abort = s.abort := rfl
@[simp] theorem State.commit_host : (s.commit v p m).host = s.host := rfl
@[simp] theorem State.commit_port : (s.commit v p m).port = s.port := rfl
@[simp] theorem State.commit_script : (s.commit v p m).script = s.script := rfl
@[simp] theorem State.commit_tick : (s.commit v p m).tick = s.tick := rfl

/-! ### Taking a fault -/

@[simp] theorem State.raiseIllegal_vps (c : IllegalCode) :
    (s.raiseIllegal v p c).vps = s.vps.set v { p with seq := .unsupportedTrap, fault := .illegal c } := rfl
@[simp] theorem State.raiseIllegal_mem (c : IllegalCode) : (s.raiseIllegal v p c).mem = s.mem := rfl
@[simp] theorem State.raiseIllegal_abort (c : IllegalCode) : (s.raiseIllegal v p c).abort = s.abort := rfl
@[simp] theorem State.raiseIllegal_host (c : IllegalCode) : (s.raiseIllegal v p c).host = s.host := rfl
@[simp] theorem State.raiseIllegal_port (c : IllegalCode) : (s.raiseIllegal v p c).port = s.port := rfl
@[simp] theorem State.raiseIllegal_script (c : IllegalCode) : (s.raiseIllegal v p c).script = s.script := rfl
@[simp] theorem State.raiseIllegal_tick (c : IllegalCode) : (s.raiseIllegal v p c).tick = s.tick := rfl

@[simp] theorem State.raiseViolation_vps (c : ViolationCode) :
    (s.raiseViolation v p c).vps = s.vps.set v { p with seq := .abort, fault := .violation c } := rfl
@[simp] theorem State.raiseViolation_mem (c : ViolationCode) : (s.raiseViolation v p c).mem = s.mem := rfl
@[simp] theorem State.raiseViolation_abort (c : ViolationCode) : (s.raiseViolation v p c).abort = true := rfl
@[simp] theorem State.raiseViolation_host (c : ViolationCode) : (s.raiseViolation v p c).host = s.host := rfl
@[simp] theorem State.raiseViolation_port (c : ViolationCode) : (s.raiseViolation v p c).port = s.port := rfl
@[simp] theorem State.raiseViolation_script (c : ViolationCode) : (s.raiseViolation v p c).script = s.script := rfl
@[simp] theorem State.raiseViolation_tick (c : ViolationCode) : (s.raiseViolation v p c).tick = s.tick := rfl

/-! ### VP.setReg and VP.endCommand -/

@[simp] theorem VP.setReg_flags (r : Fin 16) (x : Reg64) : (p.setReg r x).flags = p.flags := rfl
@[simp] theorem VP.setReg_fault (r : Fin 16) (x : Reg64) : (p.setReg r x).fault = p.fault := rfl
@[simp] theorem VP.setReg_seq (r : Fin 16) (x : Reg64) : (p.setReg r x).seq = p.seq := rfl
@[simp] theorem VP.setReg_inflight (r : Fin 16) (x : Reg64) : (p.setReg r x).inflight = p.inflight := rfl
@[simp] theorem VP.setReg_cmds (r : Fin 16) (x : Reg64) : (p.setReg r x).cmds = p.cmds := rfl

/-- A register reads back what was last written to it. -/
@[simp] theorem VP.reg_setReg_same (r : Fin 16) (x : Reg64) : (p.setReg r x).reg r = x := by
  simp [VP.reg, VP.setReg, Vector.get_eq_getElem]

/-- Writing one register leaves every other alone (R32). -/
theorem VP.reg_setReg_other {r r' : Fin 16} (h : r' ≠ r) (x : Reg64) : (p.setReg r x).reg r' = p.reg r' := by
  have : r.val ≠ r'.val := fun e => h (Fin.ext e.symm)
  simp [VP.reg, VP.setReg, Vector.get_eq_getElem, Vector.getElem_set_ne, this]

/-- The second write to a register is the one that stays. -/
@[simp] theorem VP.setReg_setReg (r : Fin 16) (x y : Reg64) : (p.setReg r x).setReg r y = p.setReg r y := by
  simp [VP.setReg]

@[simp] theorem VP.endCommand_regs : p.endCommand.regs = p.regs := rfl
@[simp] theorem VP.endCommand_flags : p.endCommand.flags = p.flags := rfl
@[simp] theorem VP.endCommand_fault : p.endCommand.fault = p.fault := rfl
@[simp] theorem VP.endCommand_seq : p.endCommand.seq = .idle := rfl
@[simp] theorem VP.endCommand_inflight : p.endCommand.inflight = none := rfl
@[simp] theorem VP.endCommand_cmds : p.endCommand.cmds = p.cmds := rfl

/-! ### Free choices: only `script` and `tick` change -/

@[simp] theorem State.choose_vps (k : Nat) : (s.choose k).2.vps = s.vps := by
  unfold State.choose State.draw; split <;> [rfl; (cases s.script <;> rfl)]
@[simp] theorem State.choose_mem (k : Nat) : (s.choose k).2.mem = s.mem := by
  unfold State.choose State.draw; split <;> [rfl; (cases s.script <;> rfl)]
@[simp] theorem State.choose_abort (k : Nat) : (s.choose k).2.abort = s.abort := by
  unfold State.choose State.draw; split <;> [rfl; (cases s.script <;> rfl)]
@[simp] theorem State.choose_host (k : Nat) : (s.choose k).2.host = s.host := by
  unfold State.choose State.draw; split <;> [rfl; (cases s.script <;> rfl)]
@[simp] theorem State.choose_port (k : Nat) : (s.choose k).2.port = s.port := by
  unfold State.choose State.draw; split <;> [rfl; (cases s.script <;> rfl)]

/-- A choice among `k` alternatives is one of them. -/
theorem State.choose_lt {k : Nat} (h : 0 < k) : (s.choose k).1 < k := by
  unfold State.choose; split
  · simpa using h
  · exact Nat.mod_lt _ h

/-- Where there is one alternative, nothing is drawn. -/
@[simp] theorem State.choose_one : s.choose 1 = (0, s) := by simp [State.choose]

/-- Every alternative can come about: a written choice in range is taken. -/
theorem State.choose_written {k c : Nat} (hk : 1 < k) (hc : c < k) (rest : List Nat) :
    State.choose { s with script := c :: rest } k = (c, { s with script := rest }) := by
  have : ¬ k ≤ 1 := by omega
  simp [State.choose, State.draw, this, Nat.mod_eq_of_lt hc]

end Sys2Proof.Machine
end

