-- ==== Sys2Proof/Laws/Sequencer.lean ====
section
/-! SUPPORT. What the shared operations of the sequencer can do, said once: the meanings over `execute`, `execute`, the
paths, the single steps of a command in flight, and `step`. -/

namespace Sys2Proof.Machine

/-- Every arm of `exec` is `execute` at its instruction's family, width, lock intent and addressing mode. -/
theorem exec_eq_execute (i : Instr) (s : State) : exec i s = execute i.family i.width i.lock i.isreg s := by
  cases i <;> rfl

/-- What `execute` can do when it answers a next state: one of the three faults before the operand is looked at, or the
resolved command (R128). -/
theorem execute_cases {f : Family} {w : Width} {lock isreg : Bool} {s t : State}
    (h : execute f w lock isreg s = .next t) :
    ∃ p, s.vps[s.port.vp]? = some p ∧ s.abort = false ∧ p.fault = .none ∧ p.seq = .idle ∧
      ((w = .w16 ∧ lock = true ∧ t = s.raiseViolation s.port.vp p .IV_LOCK_16) ∨
       (¬(w = .w16 ∧ lock = true) ∧ s.port.payload.resOk = false ∧ t = s.raiseIllegal s.port.vp p .UD_RESOLVE) ∨
       (¬(w = .w16 ∧ lock = true) ∧ s.port.payload.resOk = true ∧
         ∃ loc, resolve w isreg s.port.payload.locRef = .ok loc ∧ t = s.runResolved s.port.vp p f w lock isreg loc)) := by
  unfold execute at h
  split at h
  · cases h
  · rename_i p hp
    refine ⟨p, hp, ?_⟩
    split at h
    · cases h
    rename_i ha
    split at h
    · cases h
    rename_i hf
    split at h
    · cases h
    rename_i hs
    refine ⟨by simpa using ha, by simpa using hf, by simpa using hs, ?_⟩
    split at h
    · rename_i h16
      simp only [Bool.and_eq_true, decide_eq_true_eq] at h16
      cases h
      exact .inl ⟨h16.1, h16.2, rfl⟩
    · rename_i h16
      simp only [Bool.and_eq_true, decide_eq_true_eq] at h16
      split at h
      · rename_i hr
        cases h
        exact .inr (.inl ⟨h16, by simpa using hr, rfl⟩)
      · rename_i hr
        split at h
        · cases h
        · rename_i loc hl
          cases h
          exact .inr (.inr ⟨h16, by simpa using hr, loc, hl, rfl⟩)

/-- What `resolve` can answer: a register byte range for a register operand, the address for a memory operand (R84). -/
theorem resolve_ok {w : Width} {isreg : Bool} {x : BitVec 64} {loc : Location} (h : resolve w isreg x = .ok loc) :
    (isreg = true ∧ loc = .regLoc (x.extractLsb' 0 4).toFin (x.extractLsb' 4 3).toNat ∧
        (x.extractLsb' 4 3).toNat ≤ 1 ∧ ((x.extractLsb' 4 3).toNat = 1 → w = .w8)) ∨
      (isreg = false ∧ loc = .memLoc x ∧ x.toNat + w.bytes ≤ 2 ^ 64) := by
  unfold resolve at h
  cases isreg
  · simp only [Bool.false_eq_true, if_false] at h
    split at h
    · cases h
    · cases h
      exact .inr ⟨rfl, rfl, by omega⟩
  · simp only [if_true] at h
    split at h
    · cases h
    · rename_i hc
      cases h
      refine .inl ⟨rfl, rfl, by omega, fun h1 => ?_⟩
      by_contra hw
      exact hc (.inr (.inr ⟨h1, hw⟩))

/-- `resolve` answers exactly when the payload is one the resolver may hand over (WellFormed). -/
theorem resolve_isOk (i : Instr) (pl : Payload) (h : pl.resOk = true) :
    (∃ loc, resolve i.width i.isreg pl.locRef = .ok loc) ↔ pl.wf i = true := by
  unfold resolve Payload.wf Payload.registerOk Payload.memoryOk
  rw [h]
  cases i.isreg
  · simp only [Bool.false_eq_true, if_false, Bool.not_true, Bool.false_or, decide_eq_true_eq]
    split
    · rename_i hc
      exact ⟨fun ⟨_, e⟩ => (nomatch e), fun e => absurd hc (Nat.not_lt.2 e)⟩
    · rename_i hc
      exact ⟨fun _ => Nat.not_lt.1 hc, fun _ => ⟨_, rfl⟩⟩
  · simp only [if_true, Bool.not_true, Bool.false_or, Bool.and_eq_true, Bool.or_eq_true, beq_iff_eq]
    generalize (pl.locRef.extractLsb' 4 3).toNat = off
    split
    · rename_i hc
      refine ⟨fun ⟨_, e⟩ => (nomatch e), fun ⟨hz, ho⟩ => ?_⟩
      rcases hc with hc | hc | ⟨h1, hc⟩
      · exact absurd hz hc
      · rcases ho with ho | ⟨ho, -⟩ <;> omega
      · rcases ho with ho | ⟨-, ho⟩
        · exact absurd (ho.symm.trans h1) (by decide)
        · exact absurd ho hc
    · rename_i hc
      refine ⟨fun _ => ?_, fun _ => ⟨_, rfl⟩⟩
      refine ⟨Classical.byContradiction fun hz => hc (.inl hz), ?_⟩
      by_cases h0 : off = 0
      · exact .inl h0
      · have h1 : off = 1 := Classical.byContradiction fun h1 => hc (.inr (.inl (by omega)))
        exact .inr ⟨h1, Classical.byContradiction fun hw => hc (.inr (.inr ⟨h1, hw⟩))⟩

/-- What a resolved command does: the lock violation, the incapable host's trap, the atomic path on an aligned memory
operand, or the plain path (R118, R119). -/
theorem runResolved_cases (s : State) (v : Nat) (p : VP) (f : Family) (w : Width) (lock isreg : Bool) (loc : Location) :
    (lock = true ∧ isreg = true ∧ s.runResolved v p f w lock isreg loc = s.raiseViolation v p .IV_LOCK_REG) ∨
      (¬(lock = true ∧ isreg = true) ∧
        ((choosePath lock w loc s.host = .noAtomic ∧
            s.runResolved v p f w lock isreg loc = s.raiseIllegal v p .UD_NO_ATOMIC) ∨
         (∃ addr, loc = .memLoc addr ∧ choosePath lock w loc s.host = .atomic ∧
            s.runResolved v p f w lock isreg loc = s.runAtomic v p f w lock addr) ∨
         (choosePath lock w loc s.host = .plain ∧
            s.runResolved v p f w lock isreg loc = s.runPlain v p f w lock loc))) := by
  unfold State.runResolved
  by_cases hl : lock = true ∧ isreg = true
  · simp [hl.1, hl.2]
  · have : (lock && isreg) = false := by simpa using hl
    refine .inr ⟨hl, ?_⟩
    rw [this]
    cases loc with
    | regLoc r off => simp [choosePath]
    | memLoc addr =>
      cases hc : choosePath lock w (.memLoc addr) s.host <;> simp

/-- The paths path selection can choose for a memory operand, with their conditions (R119). -/
theorem choosePath_mem (lock : Bool) (w : Width) (addr : Addr) (h : HostCaps) :
    (choosePath lock w (.memLoc addr) h = .atomic ∧ lock = true ∧ aligned addr w = true ∧ h.hasCas w = true) ∨
      (choosePath lock w (.memLoc addr) h = .noAtomic ∧ lock = true ∧ aligned addr w = true ∧ h.hasCas w = false) ∨
      (choosePath lock w (.memLoc addr) h = .plain ∧ ¬(lock = true ∧ aligned addr w = true)) := by
  unfold choosePath
  cases lock <;> cases ha : aligned addr w <;> cases h.hasCas w <;> simp [ha]

/-- Nothing comes between the read and the swap of a whole iteration, so the swap succeeds (R122, R133). -/
theorem casIteration_eq (f : Family) (w : Width) (addr : Addr) (p : VP) (m : Memory) :
    casIteration f w addr p m =
      (true, { p with flags := (ops f w (memRead m addr w.bytes) 0 p.flags).2 },
        memWrite m addr (ops f w (memRead m addr w.bytes) 0 p.flags).1 w.bytes) := by
  simp [casIteration, memCas]

/-- The plain path of a memory command with nothing in between (R121). -/
theorem directRmw_mem (f : Family) (w : Width) (addr : Addr) (p : VP) (m : Memory) :
    directRmw f w (.memLoc addr) p m =
      ({ p with flags := (ops f w (memRead m addr w.bytes) 0 p.flags).2 },
        memWrite m addr (ops f w (memRead m addr w.bytes) 0 p.flags).1 w.bytes) := by
  cases w <;> rfl

/-- The plain path of a register command leaves memory alone (R32, R50). -/
theorem directRmw_reg_mem (f : Family) (w : Width) (r : Fin 16) (off : Nat) (p : VP) (m : Memory) :
    (directRmw f w (.regLoc r off) p m).2 = m := by
  cases w <;> rfl

/-- What the plain path of a register command does to its virtual processor: one register and the flags (R32). -/
theorem directRmw_reg_vp (f : Family) (w : Width) (r : Fin 16) (off : Nat) (p : VP) (m : Memory) :
    ∃ x, (directRmw f w (.regLoc r off) p m).1 =
      ({ p with flags := (ops f w (regSlice (p.reg r) off w.bytes) 0 p.flags).2 } : VP).setReg r x := by
  cases w
  case w32 => exact ⟨_, VP.setReg_setReg _ _ _ _⟩
  all_goals exact ⟨_, rfl⟩

/-- What the step of a command in flight can do to the state: memory, the record of its virtual processor, and the free
choices. -/
theorem microStep_frame (s : State) (v : Nat) (p : VP) (f : InFlight) :
    ∃ q, (s.microStep v p f).vps = s.vps.set v q ∧ q.regs = p.regs ∧ q.cmds = p.cmds ∧ q.fault = p.fault ∧
      ((q.seq = p.seq ∧ ∃ ph, q.inflight = some { f with phase := ph }) ∨ (q.seq = .idle ∧ q.inflight = none)) ∧
      (s.microStep v p f).abort = s.abort ∧ (s.microStep v p f).host = s.host ∧
      (s.microStep v p f).port = s.port := by
  unfold State.microStep
  cases hph : f.phase with
  | reading todo got =>
    simp only [State.readByteStep]
    split
    · exact ⟨_, congrArg (List.set · v _) (State.choose_vps _ _), rfl, rfl, rfl, .inl ⟨rfl, _, rfl⟩, by simp, by simp, by simp⟩
    · exact ⟨_, congrArg (List.set · v _) (State.choose_vps _ _), rfl, rfl, rfl, .inl ⟨rfl, _, rfl⟩, by simp, by simp, by simp⟩
  | writing todo =>
    simp only [State.writeByteStep]
    split
    · exact ⟨_, congrArg (List.set · v _) (State.choose_vps _ _), rfl, rfl, rfl, .inr ⟨rfl, rfl⟩, by simp, by simp, by simp⟩
    · exact ⟨_, congrArg (List.set · v _) (State.choose_vps _ _), rfl, rfl, rfl, .inl ⟨rfl, _, rfl⟩, by simp, by simp, by simp⟩
  | casRead =>
    exact ⟨_, rfl, rfl, rfl, rfl, .inl ⟨rfl, _, rfl⟩, rfl, rfl, rfl⟩
  | casSwap old cand lf =>
    simp only [State.casSwapStep]
    split
    · exact ⟨_, rfl, rfl, rfl, rfl, .inr ⟨rfl, rfl⟩, rfl, rfl, rfl⟩
    · exact ⟨_, rfl, rfl, rfl, rfl, .inl ⟨rfl, _, rfl⟩, rfl, rfl, rfl⟩

/-- What `step` can do when it answers a next state: no abort, and a step of an enabled virtual processor after a free
choice, a step of its command in flight, a reserved encoding's trap, or its next command (R89, R111, R244). -/
theorem step_cases {s t : State} (h : step s = .next t) :
    s.abort = false ∧ ∃ v s', s.nextVp = some (v, s') ∧ ∃ p, s'.vps[v]? = some p ∧
      ((∃ f, p.inflight = some f ∧ t = s'.microStep v p f) ∨
       (∃ c rest code, p.inflight = none ∧ p.cmds = c :: rest ∧ decode c.word = .error code ∧
          t = (s'.present v p c rest).raiseIllegal v { p with cmds := rest } code) ∨
       (∃ c rest i, p.inflight = none ∧ p.cmds = c :: rest ∧ decode c.word = .ok i ∧
          exec i (s'.present v p c rest) = .next t)) := by
  unfold step at h
  split at h
  · cases h
  rename_i ha
  refine ⟨by simpa using ha, ?_⟩
  split at h
  · cases h
  rename_i c hc
  obtain ⟨v, s'⟩ := c
  refine ⟨v, s', hc, ?_⟩
  unfold stepVp at h
  split at h
  · cases h
  rename_i p hp
  refine ⟨p, hp, ?_⟩
  split at h
  · rename_i f hf
    cases h
    exact .inl ⟨f, hf, rfl⟩
  · rename_i hf
    split at h
    · cases h
    rename_i c rest hcm
    split at h
    · rename_i code hd
      cases h
      exact .inr (.inl ⟨c, rest, code, hf, hcm, hd, rfl⟩)
    · rename_i i hd
      exact .inr (.inr ⟨c, rest, i, hf, hcm, hd, h⟩)

/-- The virtual processor chosen is enabled, and choosing it changes only the free choices. -/
theorem nextVp_some {s s' : State} {v : Nat} (h : s.nextVp = some (v, s')) :
    v ∈ s.enabled ∧ s' = (s.choose s.enabled.length).2 := by
  unfold State.nextVp at h
  split at h
  · cases h
  · rename_i u rest hu
    simp only [Option.some.injEq, Prod.mk.injEq] at h
    obtain ⟨h1, h2⟩ := h
    have hlt := s.choose_lt (k := (u :: rest).length) (by simp)
    rw [hu]
    refine ⟨?_, h2.symm⟩
    rw [← h1, List.getD_eq_getElem _ _ hlt]
    exact List.getElem_mem hlt

/-- An enabled virtual processor exists and has an enabled step. -/
theorem mem_enabled {s : State} {v : Nat} : v ∈ s.enabled ↔ ∃ p, s.vps[v]? = some p ∧ p.canStep = true := by
  simp only [State.enabled, List.mem_filter, List.mem_range, State.canStep]
  constructor
  · rintro ⟨hv, h⟩
    rw [List.getElem?_eq_getElem hv] at h ⊢
    exact ⟨_, rfl, h⟩
  · rintro ⟨p, hp, h⟩
    exact ⟨(List.getElem?_eq_some_iff.1 hp).1, by rw [hp]; exact h⟩

/-- Quiet for `v`: every other virtual processor has no step to take. -/
theorem quiet_iff {s : State} {v : Nat} :
    s.quiet v = true ↔ ∀ u q, s.vps[u]? = some q → q.canStep = true → u = v := by
  simp only [State.quiet, List.all_eq_true, beq_iff_eq]
  constructor
  · intro h u q hq hc
    exact h u (mem_enabled.2 ⟨q, hq, hc⟩)
  · intro h u hu
    obtain ⟨q, hq, hc⟩ := mem_enabled.1 hu
    exact h u q hq hc

/-- What a resolved command can do: take a fault, or change the record of its virtual processor and the operand, every
register but the operand's and the flags as the operation gives them (R32, R73, R131). -/
theorem runResolved_frame {s t : State} {v : Nat} {p : VP} {f : Family} {w : Width} {lock isreg : Bool} {loc : Location}
    (h : t = s.runResolved v p f w lock isreg loc) :
    (∃ c, t = s.raiseIllegal v p c) ∨ (∃ c, t = s.raiseViolation v p c) ∨
    ∃ q, t.vps = s.vps.set v q ∧ q.fault = p.fault ∧ q.cmds = p.cmds ∧ t.abort = s.abort ∧ t.host = s.host ∧
      t.port = s.port ∧ ∃ fl, (q.flags = p.flags ∨ q.flags = (ops f w fl 0 p.flags).2) ∧
      ((∃ r off, loc = .regLoc r off ∧ t.mem = s.mem ∧ ∀ r', r' ≠ r → q.reg r' = p.reg r') ∨
       (∃ a, loc = .memLoc a ∧ q.regs = p.regs ∧
          (t.mem = s.mem ∨ ∃ x : BitVec w.bits, t.mem = memWrite s.mem a x w.bytes))) := by
  subst h
  rcases runResolved_cases s v p f w lock isreg loc with ⟨_, _, h⟩ | ⟨_, ⟨_, h⟩ | ⟨addr, he, _, h⟩ | ⟨_, h⟩⟩
  · exact .inr (.inl ⟨_, h⟩)
  · exact .inl ⟨_, h⟩
  · subst he
    refine .inr (.inr ?_)
    rw [h, State.runAtomic, casIteration_eq]
    cases hq : s.quiet v
    · rw [if_neg (by simp)]
      exact ⟨_, rfl, rfl, rfl, rfl, rfl, rfl, 0, .inl rfl, .inr ⟨addr, rfl, rfl, .inl rfl⟩⟩
    · rw [if_pos (by simp)]
      exact ⟨_, rfl, rfl, rfl, rfl, rfl, rfl, _, .inr rfl, .inr ⟨addr, rfl, rfl, .inr ⟨_, rfl⟩⟩⟩
  · refine .inr (.inr ?_)
    rw [h]
    cases loc with
    | regLoc r off =>
      simp only [State.runPlain]
      obtain ⟨x, hx⟩ := directRmw_reg_vp f w r off p s.mem
      rw [hx, directRmw_reg_mem]
      exact ⟨_, rfl, rfl, rfl, rfl, rfl, rfl, _, .inr rfl,
        .inl ⟨r, off, rfl, rfl, fun r' hr' => VP.reg_setReg_other _ hr' x⟩⟩
    | memLoc addr =>
      simp only [State.runPlain]
      split
      · rw [directRmw_mem]
        exact ⟨_, rfl, rfl, rfl, rfl, rfl, rfl, _, .inr rfl, .inr ⟨addr, rfl, rfl, .inr ⟨_, rfl⟩⟩⟩
      · dsimp only [State.beginPlain, State.microStep, State.readByteStep]
        split
        · exact ⟨_, congrArg (List.set · v _) (State.choose_vps _ _), rfl, rfl, by simp, by simp, by simp, _, .inr rfl,
            .inr ⟨addr, rfl, rfl, .inl (by simp)⟩⟩
        · exact ⟨_, congrArg (List.set · v _) (State.choose_vps _ _), rfl, rfl, by simp, by simp, by simp, 0, .inl rfl,
            .inr ⟨addr, rfl, rfl, .inl (by simp)⟩⟩

/-- Choosing looks at the free choices only, so it commutes with replacing a virtual processor's record. -/
theorem choose_setVp (s : State) (v : Nat) (p : VP) (k : Nat) :
    (s.setVp v p).choose k = ((s.choose k).1, (s.choose k).2.setVp v p) := by
  unfold State.choose State.draw State.setVp
  split
  · rfl
  · cases s.script <;> rfl

/-- Bytes read in any order spell the little-endian sum of the bytes in rising order (R53, R56). -/
theorem bytesValue_eq_range {W n : Nat} {got : List (Nat × Byte)} {b : Nat → Byte}
    (h : (got.map Prod.fst).Perm (List.range n)) (hb : ∀ jb ∈ got, jb.2 = b jb.1) :
    bytesValue W got = BitVec.ofNat W ((List.range n).map fun j => (b j).toNat * 2 ^ (8 * j)).sum := by
  have h1 : got = (got.map Prod.fst).map (fun j => (j, b j)) := by
    rw [List.map_map]
    conv => lhs; rw [← List.map_id got]
    apply List.map_congr_left
    intro jb hjb
    simp [← hb jb hjb]
  rw [bytesValue, h1, ((h.map _).map _).sum_eq, List.map_map]
  rfl

/-- The bytes of an operand, read in any order, spell what `MemRead` reads (R53, R56). -/
theorem bytesValue_eq_memRead {m : Memory} {a : Addr} {n : Nat} {got : List (Nat × Byte)}
    (h : (got.map Prod.fst).Perm (List.range n)) (hb : ∀ jb ∈ got, jb.2 = m.read (byteAddr a jb.1)) :
    bytesValue (8 * n) got = memRead m a n := by
  rw [bytesValue_eq_range (b := fun j => m.read (byteAddr a j)) h hb, memRead]
  congr 1
  clear h hb
  induction n with
  | zero => rfl
  | succ n ih => rw [List.range_succ]; simp [littleEndianSum] at ih ⊢; rw [ih]

/-- The bytes below byte `n` of a little-endian sum say it modulo `2^(8n)`. -/
theorem byteSum_mod (b : Nat → Byte) (n k : Nat) :
    ((List.range (n + k)).map fun j => (b j).toNat * 2 ^ (8 * j)).sum % 2 ^ (8 * n) =
      ((List.range n).map fun j => (b j).toNat * 2 ^ (8 * j)).sum := by
  have hs : ∀ m, ((List.range (m + 1)).map fun j => (b j).toNat * 2 ^ (8 * j)).sum =
      ((List.range m).map fun j => (b j).toNat * 2 ^ (8 * j)).sum + (b m).toNat * 2 ^ (8 * m) := fun m => by
    simp [List.range_succ]
  induction k with
  | zero =>
    refine Nat.mod_eq_of_lt ?_
    induction n with
    | zero => simp
    | succ n ih =>
      have hb := Nat.mul_le_mul_right (2 ^ (8 * n)) (Nat.lt_succ_iff.1 (b n).isLt : (b n).toNat ≤ 255)
      have hp : 2 ^ (8 * (n + 1)) = 256 * 2 ^ (8 * n) := by rw [Nat.mul_succ, Nat.pow_add, Nat.mul_comm]
      rw [Nat.add_zero] at ih ⊢
      rw [hs, hp]
      omega
  | succ k ih =>
    rw [← Nat.add_assoc, hs, show 8 * (n + k) = 8 * n + 8 * k by omega, Nat.pow_add, Nat.mul_left_comm,
      Nat.add_mul_mod_self_left, ih]

/-- Bytes at different offsets are the values of one function of the offset. -/
theorem exists_byte_function {got : List (Nat × Byte)} (h : (got.map Prod.fst).Nodup) :
    ∃ b : Nat → Byte, ∀ jb ∈ got, jb.2 = b jb.1 := by
  induction got with
  | nil => exact ⟨fun _ => 0, fun _ h => nomatch h⟩
  | cons x got ih =>
    obtain ⟨hx, h⟩ := List.nodup_cons.1 h
    obtain ⟨b, hb⟩ := ih h
    refine ⟨fun j => if j = x.1 then x.2 else b j, fun jb hjb => ?_⟩
    rcases List.mem_cons.1 hjb with rfl | hjb
    · simp
    · have : jb.1 ≠ x.1 := fun e => hx (e ▸ List.mem_map_of_mem hjb)
      simp [this, hb jb hjb]

/-- Byte `k` of the value spelled by the bytes of an operand is the byte that was read at offset `k`, whatever the order and
whatever memory held when (R53, R56). -/
theorem byteOf_bytesValue {n : Nat} {got : List (Nat × Byte)} (h : (got.map Prod.fst).Perm (List.range n))
    {kb : Nat × Byte} (hk : kb ∈ got) : byteOf (bytesValue (8 * n) got) kb.1 = kb.2 := by
  obtain ⟨b, hb⟩ := exists_byte_function (h.nodup_iff.2 List.nodup_range)
  have hlt : kb.1 < n := List.mem_range.1 (h.mem_iff.1 (List.mem_map_of_mem hk))
  obtain ⟨d, hd⟩ := Nat.exists_eq_add_of_le (Nat.succ_le_of_lt hlt)
  have hself := byteSum_mod b n 0
  have h1 := byteSum_mod b kb.1 0
  have h2 := byteSum_mod b (kb.1 + 1) d
  rw [Nat.add_zero] at hself h1
  rw [← Nat.succ_eq_add_one, ← hd] at h2
  have hp : 2 ^ (8 * kb.1) * 2 ^ 8 = 2 ^ (8 * kb.1.succ) := by rw [← Nat.pow_add]; rfl
  apply BitVec.eq_of_toNat_eq
  rw [byteOf_toNat, bytesValue_eq_range h hb, BitVec.toNat_ofNat, hself, ← Nat.mod_mul_right_div_self, hp, h2,
    List.range_succ]
  simp only [List.map_append, List.map_cons, List.map_nil, List.sum_append, List.sum_cons, List.sum_nil, Nat.add_zero]
  rw [Nat.add_mul_div_right _ _ (Nat.two_pow_pos _), Nat.div_eq_of_lt (h1 ▸ Nat.mod_lt _ (Nat.two_pow_pos _)),
    Nat.zero_add, hb kb hk]

/-- A value no wider than 64 bits survives being held in 64 (the CAS temporaries of R40). -/
theorem setWidth_setWidth_64 {W : Nat} (h : W ≤ 64) (x : BitVec W) : (x.setWidth 64).setWidth W = x := by
  apply BitVec.eq_of_toNat_eq
  simp only [BitVec.toNat_setWidth]
  have h2 : 2 ^ W ≤ 2 ^ 64 := Nat.pow_le_pow_right (by decide) h
  rw [Nat.mod_eq_of_lt (Nat.lt_of_lt_of_le x.isLt h2), Nat.mod_eq_of_lt x.isLt]

/-- No operand is wider than 64 bits (R6). -/
theorem bits_le_64 (w : Width) : w.bits ≤ 64 := by cases w <;> decide

end Sys2Proof.Machine
end

