-- ==== Sys2Proof/Laws/Coherence.lean ====
section
/-! SUPPORT. What the coherence of a state says, part by part, and how one new record keeps it. -/

namespace Sys2Proof.Machine

/-- The parts of `State.coherent`. -/
theorem State.coherent_iff {s : State} :
    s.coherent = true ↔ s.vps ≠ [] ∧ s.mem.wf = true ∧ (∀ p ∈ s.vps, p.coherent s.host = true) ∧
      s.abort = s.vps.any VP.violated := by
  simp only [State.coherent, Bool.and_eq_true, List.all_eq_true, beq_iff_eq, Bool.not_eq_true',
    List.isEmpty_eq_false_iff, and_assoc]

/-- A coherent virtual processor with a command in flight: no fault, and the sequencer state its phase belongs to. -/
theorem VP.coherent_inflight {p : VP} {h : HostCaps} {f : InFlight} (hc : p.coherent h = true)
    (hf : p.inflight = some f) :
    p.fault = .none ∧ f.coherent p.flags = true ∧ f.onPath h = true ∧
      ((p.seq = .directRmw ∧ ((∃ t g, f.phase = .reading t g) ∨ ∃ t, f.phase = .writing t)) ∨
       (p.seq = .atomicCasLoop ∧ (f.phase = .casRead ∨ ∃ a b c, f.phase = .casSwap a b c))) := by
  unfold VP.coherent at hc
  rw [hf] at hc
  split at hc <;> simp_all
  all_goals
    obtain ⟨⟨h1, h2⟩, h3⟩ := hc
    split at h3 <;> simp_all

/-- A coherent virtual processor with neither a fault nor a command in flight is idle. -/
theorem VP.coherent_idle {p : VP} {h : HostCaps} (hc : p.coherent h = true) (hf : p.fault = .none)
    (hi : p.inflight = none) : p.seq = .idle := by
  unfold VP.coherent at hc
  rw [hi, hf] at hc
  split at hc <;> simp_all

/-- What a coherent command about to swap holds (R40, R122). -/
theorem InFlight.coherent_casSwap {f : InFlight} {fin : Flags} {old cand : BitVec 64} {lf : Flags}
    (h : f.coherent fin = true) (hp : f.phase = .casSwap old cand lf) :
    f.addr.toNat + f.width.bytes ≤ 2 ^ 64 ∧ f.lock = true ∧ old.toNat < 2 ^ f.width.bits ∧
      cand = (ops f.family f.width (old.setWidth _) 0 fin).1.setWidth 64 ∧
      lf = (ops f.family f.width (old.setWidth _) 0 fin).2 := by
  unfold InFlight.coherent at h
  simp only [hp] at h
  simpa [and_assoc] using h

/-- Whether some virtual processor has a property, after one that had it not is replaced. -/
theorem any_set {l : List VP} {v : Nat} {p q : VP} {g : VP → Bool} (hp : l[v]? = some p) (hg : g p = false) :
    (l.set v q).any g = (l.any g || g q) := by
  induction l generalizing v with
  | nil => simp at hp
  | cons x l ih =>
    cases v with
    | zero => simp at hp; subst hp; simp [hg, Bool.or_comm]
    | succ v => simp at hp; simp [ih hp, Bool.or_assoc]

/-- A state that differs from a coherent one in the record of one virtual processor without a fault, and in memory, is
coherent if the new record is, memory keeps its form, and a new violation sets the latch. -/
theorem State.coherent_of_set {s t : State} {v : Nat} {p q : VP} (hs : s.coherent = true) (hp : s.vps[v]? = some p)
    (hf : p.fault = .none) (hv : t.vps = s.vps.set v q) (hq : q.coherent s.host = true) (hh : t.host = s.host)
    (hm : t.mem.wf = true) (ha : t.abort = (s.abort || q.violated)) : t.coherent = true := by
  obtain ⟨h1, -, h3, h4⟩ := State.coherent_iff.1 hs
  refine State.coherent_iff.2 ⟨by rw [hv]; simpa using h1, hm, fun x hx => ?_, ?_⟩
  · rw [hv] at hx
    rw [hh]
    rcases List.mem_or_eq_of_mem_set hx with hx | hx
    · exact h3 x hx
    · rw [hx]; exact hq
  · rw [ha, hv, any_set hp (by simp [VP.violated, hf]), h4]

/-- Choosing an element leaves the others. -/
theorem eraseIdx_append_perm {α : Type} {l : List α} {c : Nat} (h : c < l.length) (d : α) :
    (l.eraseIdx c ++ [l.getD c d]).Perm l := by
  rw [List.getD_eq_getElem _ _ h]
  exact List.perm_append_comm.trans (List.getElem_cons_eraseIdx_perm h)

end Sys2Proof.Machine
end

