-- ==== Sys2Proof/Laws/Decode.lean ====
section
/-! SUPPORT. The decoder by the field `zero`: a word with it set is reserved, and the others are the 2048 low words. -/

namespace Sys2Proof

/-- A word whose field `zero` is not 0 is reserved (R89). -/
theorem decode_of_zero_ne {w : CmdWord} (h : w.extractLsb' 11 5 ≠ 0) : decode w = .error .UD_RESERVED := by
  unfold decode decodeFields
  exact if_pos (.inl h)

/-- A word that matches a row of the opcode table has its field `zero` 0 (R87). -/
theorem zero_of_rowMatch {w : CmdWord} {i : Instr} (h : w &&& i.rowMask = i.rowMatch) : w.extractLsb' 11 5 = 0 := by
  have h1 : i.rowMask.extractLsb' 11 5 = BitVec.allOnes 5 := by cases i <;> simp [Instr.rowMask]
  have h2 : i.rowMatch.extractLsb' 11 5 = 0 := by cases i <;> simp [Instr.rowMatch]
  have h3 := congrArg (BitVec.extractLsb' 11 5) h
  rw [BitVec.extractLsb'_and, h1, h2, BitVec.and_allOnes] at h3
  exact h3

/-- What holds of the 2048 words below 0x0800 holds of every word whose field `zero` is 0. -/
theorem forall_of_zero {P : CmdWord → Prop} (h : ∀ n, n < 2048 → P (BitVec.ofNat 16 n)) {w : CmdWord}
    (hw : w.extractLsb' 11 5 = 0) : P w := by
  have h1 := congrArg BitVec.toNat hw
  rw [BitVec.extractLsb'_toNat, Nat.shiftRight_eq_div_pow] at h1
  have hlt := w.isLt
  have h2 : w.toNat / 2 ^ 11 % 2 ^ 5 = 0 := h1
  have h3 := h w.toNat (by omega)
  rwa [BitVec.ofNat_toNat, BitVec.setWidth_eq] at h3

end Sys2Proof
end

