-- ==== Sys2Proof/Laws/PerInstr.lean ====
section
/-! SUPPORT. The family TableRow: of every instruction, the word the encoder gives matches the instruction's row of
spec/opcode_table.json and carries its two operand fields at their bits (R81, R87). -/

namespace Sys2Proof.Laws.TableRow

/-- The encoded word matches the row, with `lock` at bit 4 and `isreg` at bit 3, and every ignored bit is 0 (R91). -/
def Statement (i : Instr) : Prop :=
  encode i &&& i.rowMask = i.rowMatch ∧ (encode i).getLsbD 4 = i.lock ∧ (encode i).getLsbD 3 = i.isreg ∧
    encode i &&& ~~~(i.rowMask ||| 0x0018#16) = 0

theorem not8 (lock isreg : Bool) : Statement (.not8 lock isreg) := by
  cases lock <;> cases isreg <;> exact ⟨by decide, by decide, by decide, by decide⟩

theorem not16 (lock isreg : Bool) : Statement (.not16 lock isreg) := by
  cases lock <;> cases isreg <;> exact ⟨by decide, by decide, by decide, by decide⟩

theorem not32 (lock isreg : Bool) : Statement (.not32 lock isreg) := by
  cases lock <;> cases isreg <;> exact ⟨by decide, by decide, by decide, by decide⟩

theorem not64 (lock isreg : Bool) : Statement (.not64 lock isreg) := by
  cases lock <;> cases isreg <;> exact ⟨by decide, by decide, by decide, by decide⟩

theorem neg8 (lock isreg : Bool) : Statement (.neg8 lock isreg) := by
  cases lock <;> cases isreg <;> exact ⟨by decide, by decide, by decide, by decide⟩

theorem neg16 (lock isreg : Bool) : Statement (.neg16 lock isreg) := by
  cases lock <;> cases isreg <;> exact ⟨by decide, by decide, by decide, by decide⟩

theorem neg32 (lock isreg : Bool) : Statement (.neg32 lock isreg) := by
  cases lock <;> cases isreg <;> exact ⟨by decide, by decide, by decide, by decide⟩

theorem neg64 (lock isreg : Bool) : Statement (.neg64 lock isreg) := by
  cases lock <;> cases isreg <;> exact ⟨by decide, by decide, by decide, by decide⟩

theorem inc8 (lock isreg : Bool) : Statement (.inc8 lock isreg) := by
  cases lock <;> cases isreg <;> exact ⟨by decide, by decide, by decide, by decide⟩

theorem inc16 (lock isreg : Bool) : Statement (.inc16 lock isreg) := by
  cases lock <;> cases isreg <;> exact ⟨by decide, by decide, by decide, by decide⟩

theorem inc32 (lock isreg : Bool) : Statement (.inc32 lock isreg) := by
  cases lock <;> cases isreg <;> exact ⟨by decide, by decide, by decide, by decide⟩

theorem inc64 (lock isreg : Bool) : Statement (.inc64 lock isreg) := by
  cases lock <;> cases isreg <;> exact ⟨by decide, by decide, by decide, by decide⟩

theorem dec8 (lock isreg : Bool) : Statement (.dec8 lock isreg) := by
  cases lock <;> cases isreg <;> exact ⟨by decide, by decide, by decide, by decide⟩

theorem dec16 (lock isreg : Bool) : Statement (.dec16 lock isreg) := by
  cases lock <;> cases isreg <;> exact ⟨by decide, by decide, by decide, by decide⟩

theorem dec32 (lock isreg : Bool) : Statement (.dec32 lock isreg) := by
  cases lock <;> cases isreg <;> exact ⟨by decide, by decide, by decide, by decide⟩

theorem dec64 (lock isreg : Bool) : Statement (.dec64 lock isreg) := by
  cases lock <;> cases isreg <;> exact ⟨by decide, by decide, by decide, by decide⟩

theorem incdec8Inc (lock isreg : Bool) : Statement (.incdec8Inc lock isreg) := by
  cases lock <;> cases isreg <;> exact ⟨by decide, by decide, by decide, by decide⟩

theorem incdec8Dec (lock isreg : Bool) : Statement (.incdec8Dec lock isreg) := by
  cases lock <;> cases isreg <;> exact ⟨by decide, by decide, by decide, by decide⟩

end Sys2Proof.Laws.TableRow
end

