-- ==== Sys2Proof/Tests/Slice0.lean ====
section
/-! SUPPORT. The model's own tests: what WellFormed refuses, decoding of words written out from the spec, single steps
from spec/95_test_vectors.md, and for each statement with hypotheses a state that meets them. -/

namespace Sys2Proof.Tests

open Sys2Proof.Machine Sys2Proof.Claims

/-! ### Small states and what is looked at -/

/-- Flags in the order `CF PF AF ZF SF OF` of spec/95_test_vectors.md. -/
def fl (c p a z s o : Nat) : Flags := ⟨c == 1, p == 1, a == 1, z == 1, s == 1, o == 1⟩

/-- The bytes of a list, lowest address first. -/
def cells (a : Nat) : List Nat → Memory
  | [] => []
  | b :: bs => (cells (a + 1) bs).write a (BitVec.ofNat 8 b)

/-- A virtual processor with one register set. -/
def vpWith (r : Fin 16) (x : Reg64) (f : Flags) (cmds : List Command) : VP :=
  (VP.launch (Vector.replicate 16 0) f cmds).setReg r x

/-- One virtual processor and the payload of the command handed to it. -/
def solo (p : VP) (m : Memory) (locRef : Nat) : State :=
  ⟨[p], m, false, HostCaps.all, ⟨0, ⟨true, BitVec.ofNat 64 locRef⟩⟩, [], 0⟩

/-- A second virtual processor that has commands to execute. -/
def other : VP := vpWith 0 0 Flags.clear [⟨0x0210#16, ⟨true, 0x7000#64⟩⟩]

/-- Two virtual processors, the second with a step to take; the first choices are `script`. -/
def duo (p : VP) (m : Memory) (locRef : Nat) (script : List Nat) : State :=
  { solo p m locRef with vps := [p, other], script := script }

def zeroVp : VP := vpWith 0 0 Flags.clear []

/-- Register `r` and the flags of virtual processor 0. -/
def regOf (o : Host.Outcome State Fault Refusal) (r : Fin 16) : Option (Reg64 × Flags) :=
  match o with
  | .next t => (t.vps[0]?).map fun p => (p.reg r, p.flags)
  | _ => none

/-- `n` bytes at `a`, lowest address first, and the flags of virtual processor 0. -/
def memOf (o : Host.Outcome State Fault Refusal) (a n : Nat) : Option (List Nat × Flags) :=
  match o with
  | .next t => (t.vps[0]?).map fun p => ((List.range n).map fun k => (t.mem.read (a + k)).toNat, p.flags)
  | _ => none

/-- The fault record and the sequencer state of virtual processor 0, and the abort latch. -/
def faultOf (o : Host.Outcome State Fault Refusal) : Option (FaultRec × SeqState × Bool) :=
  match o with
  | .next t => (t.vps[0]?).map fun p => (p.fault, p.seq, t.abort)
  | _ => none

def isNext (o : Host.Outcome State Fault Refusal) : Bool :=
  match o with
  | .next _ => true
  | _ => false

theorem of_isNext {o : Host.Outcome State Fault Refusal} (h : isNext o = true) : ∃ t, o = .next t := by
  cases o with
  | next t => exact ⟨t, rfl⟩
  | fault _ => cases h
  | refused _ => cases h

/-! ### WellFormed refuses -/

/-- A lock with a register operand (R235). -/
theorem test_wf_lock_register : (Instr.inc32 true true).wf = false := by decide
/-- A lock at 16-bit width (R234). -/
theorem test_wf_lock_16 : (Instr.neg16 true false).wf = false := by decide
/-- A lock on 8-bit memory is legal. -/
theorem test_wf_lock_memory : (Instr.not8 true false).wf = true := by decide
/-- `off = 2` at width 8 (R31). -/
theorem test_payload_off_2 : Payload.wf (.not8 false true) ⟨true, 0x21#64⟩ = false := by decide
/-- `off = 1` at width 16 (R31). -/
theorem test_payload_off_1_wide : Payload.wf (.not16 false true) ⟨true, 0x11#64⟩ = false := by decide
/-- `off = 1` at width 8 is within R31. -/
theorem test_payload_off_1_byte : Payload.wf (.not8 false true) ⟨true, 0x1F#64⟩ = true := by decide
/-- `loc_ref[63:7]` not zero with a register operand (R84). -/
theorem test_payload_upper_bits : Payload.wf (.not8 false true) ⟨true, 0x80#64⟩ = false := by decide
/-- An operand that runs past the top of memory (R51). -/
theorem test_payload_wraps : Payload.wf (.not32 false false) ⟨true, 0xFFFFFFFFFFFFFFFD#64⟩ = false := by decide
/-- The last four bytes of memory do not wrap. -/
theorem test_payload_top : Payload.wf (.not32 false false) ⟨true, 0xFFFFFFFFFFFFFFFC#64⟩ = true := by decide

/-! ### Decoding: the words of spec/95_test_vectors.md section 2 -/

theorem test_decode_not : decode 0x0008#16 = .ok (.not8 false true) ∧ decode 0x00A0#16 = .ok (.not16 false false) ∧
    decode 0x0090#16 = .ok (.not32 true false) ∧ decode 0x00D8#16 = .ok (.not64 true true) ∧
    decode 0x0067#16 = .ok (.not8 false false) ∧ decode 0x00E8#16 = .ok (.not64 false true) := by decide
theorem test_decode_neg : decode 0x0108#16 = .ok (.neg8 false true) ∧ decode 0x01B8#16 = .ok (.neg16 true true) ∧
    decode 0x0180#16 = .ok (.neg32 false false) ∧ decode 0x01D0#16 = .ok (.neg64 true false) := by decide
theorem test_decode_inc : decode 0x0210#16 = .ok (.inc8 true false) ∧ decode 0x02A8#16 = .ok (.inc16 false true) ∧
    decode 0x0298#16 = .ok (.inc32 true true) ∧ decode 0x02C0#16 = .ok (.inc64 false false) := by decide
theorem test_decode_dec : decode 0x0318#16 = .ok (.dec8 true true) ∧ decode 0x03B0#16 = .ok (.dec16 true false) ∧
    decode 0x0388#16 = .ok (.dec32 false true) ∧ decode 0x03C8#16 = .ok (.dec64 false true) := by decide
theorem test_decode_incdec : decode 0x0408#16 = .ok (.incdec8Inc false true) ∧
    decode 0x0410#16 = .ok (.incdec8Inc true false) ∧ decode 0x0409#16 = .ok (.incdec8Dec false true) ∧
    decode 0x0419#16 = .ok (.incdec8Dec true true) := by decide
theorem test_decode_reserved : decode 0x040F#16 = .error .UD_SUBOPCODE ∧ decode 0x0402#16 = .error .UD_SUBOPCODE ∧
    decode 0x04C9#16 = .error .UD_RESERVED ∧ decode 0x0500#16 = .error .UD_RESERVED ∧
    decode 0x0800#16 = .error .UD_RESERVED ∧ decode 0xFFFF#16 = .error .UD_RESERVED := by decide
theorem test_decode_table_word : decodeTableWord 16 0x0401 = some (.incdec8Dec false false) ∧
    decodeTableWord 16 0x0700 = none := by decide
theorem test_encode : encode (.inc64 true false) = 0x02D0#16 ∧ encode (.dec16 false true) = 0x03A8#16 ∧
    encode (.incdec8Dec true true) = 0x0419#16 := by decide

/-! ### Single commands: section 4 of spec/95_test_vectors.md, rows of its section 3 -/

/-- V1. -/
theorem test_not8_register :
    regOf (exec (.not8 false true) (solo (vpWith 1 0x1122334455667700#64 (fl 1 0 1 1 0 1) []) [] 0x1)) 1 =
      some (0x11223344556677FF#64, fl 1 0 1 1 0 1) := by decide
/-- V2: byte 1 of the register. -/
theorem test_not8_high :
    regOf (exec (.not8 false true) (solo (vpWith 1 0x1122334455667700#64 (fl 0 0 0 0 0 0) []) [] 0x11)) 1 =
      some (0x1122334455668800#64, fl 0 0 0 0 0 0) := by decide
/-- Section 3, `not_16(0xCDEF)`. -/
theorem test_not16_memory :
    memOf (exec (.not16 false false) (solo zeroVp (cells 0x3001 [0xEF, 0xCD]) 0x3001)) 0x3000 4 =
      some ([0x00, 0x10, 0x32, 0x00], fl 0 0 0 0 0 0) := by decide
/-- V6. -/
theorem test_not32_register :
    regOf (exec (.not32 false true) (solo (vpWith 2 0xAAAAAAAA00000000#64 (fl 1 1 1 1 1 1) []) [] 0x2)) 2 =
      some (0x00000000FFFFFFFF#64, fl 1 1 1 1 1 1) := by decide
/-- V10. -/
theorem test_not64_memory :
    memOf (exec (.not64 false false)
      (solo zeroVp (cells 0x2000 [0xEF, 0xCD, 0xAB, 0x89, 0x67, 0x45, 0x23, 0x01]) 0x2000)) 0x2000 8 =
      some ([0x10, 0x32, 0x54, 0x76, 0x98, 0xBA, 0xDC, 0xFE], fl 0 0 0 0 0 0) := by decide
/-- V14: locked, on a byte, which is always aligned. -/
theorem test_neg8_locked :
    memOf (exec (.neg8 true false) (solo zeroVp (cells 0x1003 [0x80]) 0x1003)) 0x1003 1 =
      some ([0x80], fl 1 0 0 0 1 1) := by decide
/-- Section 3, `neg_16(0x00FF)`: parity of the low byte 01. -/
theorem test_neg16_register :
    regOf (exec (.neg16 false true) (solo (vpWith 3 0xFFFF000000FF#64 (fl 0 1 0 1 0 1) []) [] 0x3)) 3 =
      some (0xFFFF0000FF01#64, fl 1 0 1 0 1 0) := by decide
/-- V7: the neighbours are untouched. -/
theorem test_neg32_memory :
    memOf (exec (.neg32 false false) (solo zeroVp (cells 0x3FFF [0xAA, 1, 0, 0, 0, 0xAA]) 0x4000)) 0x3FFF 6 =
      some ([0xAA, 0xFF, 0xFF, 0xFF, 0xFF, 0xAA], fl 1 1 1 0 1 0) := by decide
/-- V8: the upper half is cleared although the value does not change. -/
theorem test_neg32_register :
    regOf (exec (.neg32 false true) (solo (vpWith 4 0x1234567800000000#64 (fl 1 1 1 1 1 1) []) [] 0x4)) 4 =
      some (0#64, fl 0 1 0 1 0 0) := by decide
/-- P6, command 3. -/
theorem test_neg64_register :
    regOf (exec (.neg64 false true) (solo (vpWith 2 0xFFFFFFFFFFFFFFD8#64 (fl 0 1 0 0 1 0) []) [] 0x2)) 2 =
      some (0x28#64, fl 1 1 1 0 0 0) := by decide
/-- V3: no carry into byte 1, `CF` kept. -/
theorem test_inc8_register :
    regOf (exec (.inc8 false true) (solo (vpWith 0 0x12FF#64 (fl 1 0 0 0 0 0) []) [] 0)) 0 =
      some (0x1200#64, fl 1 1 1 1 0 0) := by decide
/-- V9: misaligned, no fault. -/
theorem test_inc16_memory :
    memOf (exec (.inc16 false false) (solo zeroVp (cells 0x3000 [0x11, 0xFF, 0x00, 0x22]) 0x3001)) 0x3000 4 =
      some ([0x11, 0x00, 0x01, 0x22], fl 0 1 1 0 0 0) := by decide
/-- V5. -/
theorem test_inc32_register :
    regOf (exec (.inc32 false true) (solo (vpWith 0 0xDEADBEEFFFFFFFFF#64 (fl 1 0 0 0 0 0) []) [] 0)) 0 =
      some (0#64, fl 1 1 1 1 0 0) := by decide
/-- V12: the atomic path. -/
theorem test_inc32_locked :
    memOf (exec (.inc32 true false) (solo zeroVp (cells 0x1000 [0xFF, 0xFF, 0xFF, 0x7F]) 0x1000)) 0x1000 4 =
      some ([0, 0, 0, 0x80], fl 0 1 1 0 1 1) := by decide
/-- P6, command 2. -/
theorem test_inc64_register :
    regOf (exec (.inc64 false true) (solo (vpWith 2 0xFFFFFFFFFFFFFFD7#64 Flags.clear []) [] 0x2)) 2 =
      some (0xFFFFFFFFFFFFFFD8#64, fl 0 1 0 0 1 0) := by decide
/-- The contended trace, second linearisation: `dec_8(0x80)`. -/
theorem test_dec8_memory :
    memOf (exec (.dec8 true false) (solo zeroVp (cells 0x7000 [0x80]) 0x7000)) 0x7000 1 =
      some ([0x7F], fl 0 0 1 0 0 1) := by decide
/-- V4. -/
theorem test_dec16_register :
    regOf (exec (.dec16 false true) (solo (vpWith 1 0xAAAABBBBCCCC0000#64 Flags.clear []) [] 0x1)) 1 =
      some (0xAAAABBBBCCCCFFFF#64, fl 0 1 1 0 1 0) := by decide
/-- Section 3, `dec_32(0x80000000)`. -/
theorem test_dec32_register :
    regOf (exec (.dec32 false true) (solo (vpWith 5 0xFFFFFFFF80000000#64 (fl 1 0 0 0 0 0) []) [] 0x5)) 5 =
      some (0x7FFFFFFF#64, fl 1 1 1 0 0 1) := by decide
/-- V11. -/
theorem test_dec64_memory :
    memOf (exec (.dec64 false false)
      (solo (vpWith 0 0 (fl 1 0 0 0 0 0) []) (cells 0x2002 [0x77, 0, 0, 0, 0, 0, 0, 0, 0, 0x77]) 0x2003)) 0x2002 10 =
      some ([0x77, 0xFF, 0xFF, 0xFF, 0xFF, 0xFF, 0xFF, 0xFF, 0xFF, 0x77], fl 1 1 1 0 1 0) := by decide
/-- P1, command 5: the second byte of r3. -/
theorem test_incdec8_inc :
    regOf (exec (.incdec8Inc false true) (solo (vpWith 3 0x80FF#64 (fl 1 1 1 0 1 0) []) [] 0x13)) 3 =
      some (0x81FF#64, fl 1 1 0 0 1 0) := by decide
/-- Section 3, `dec_8(0x00)`, through the multiplexed entry. -/
theorem test_incdec8_dec :
    memOf (exec (.incdec8Dec false false) (solo zeroVp [] 0x10)) 0x10 2 = some ([0xFF, 0x00], fl 0 1 1 0 1 0) := by decide

/-! ### Faults -/

/-- V15: the abort, before anything is read. -/
theorem test_lock_16 :
    faultOf (exec (.inc16 true false) (solo zeroVp (cells 0x5000 [0x34, 0x12]) 0x5000)) =
      some (.violation .IV_LOCK_16, .abort, true) := by decide
/-- V16. -/
theorem test_lock_register :
    faultOf (exec (.not8 true true) (solo (vpWith 0 0xFF#64 Flags.clear []) [] 0)) =
      some (.violation .IV_LOCK_REG, .abort, true) := by decide
/-- V17, through `step`: `res_ok = 0` does not matter. -/
theorem test_subopcode :
    faultOf (step (solo (vpWith 0 7 Flags.clear [⟨0x0415#16, ⟨false, 0⟩⟩]) [] 0)) =
      some (.illegal .UD_SUBOPCODE, .unsupportedTrap, false) := by decide
/-- V18. -/
theorem test_resolver_failed :
    faultOf (exec (.inc64 false true)
      { solo (vpWith 0 5 Flags.clear []) [] 0 with port := ⟨0, ⟨false, 0⟩⟩ }) =
      some (.illegal .UD_RESOLVE, .unsupportedTrap, false) := by decide
/-- V19, first half: an aligned operand on a host without the swap. -/
theorem test_no_atomic :
    faultOf (exec (.dec64 true false)
      { solo zeroVp (cells 0x2000 [1]) 0x2000 with host := ⟨true, true, false⟩ }) =
      some (.illegal .UD_NO_ATOMIC, .unsupportedTrap, false) := by decide
/-- V19, second half: misaligned on the same host is the plain path. -/
theorem test_no_atomic_misaligned :
    memOf (exec (.dec64 true false)
      { solo zeroVp (cells 0x2004 [1]) 0x2004 with host := ⟨true, true, false⟩ }) 0x2004 8 =
      some ([0, 0, 0, 0, 0, 0, 0, 0], fl 0 1 0 1 0 0) := by decide
/-- The numbers of the codes (R202, R204). -/
theorem test_code_numbers : IllegalCode.number .UD_RESERVED = 4 ∧ ViolationCode.number .IV_LOCK_16 = 2 := by decide

/-! ### Steps -/

/-- The contended trace, step 4: the swap fails, nothing is written, the candidate's flags are dropped. -/
theorem test_failed_swap :
    memOf (step (duo { zeroVp with
      seq := .atomicCasLoop
      inflight := some ⟨.INC, .w8, 0x7000#64, true, .casSwap 0x7F#64 0x80#64 (fl 0 0 1 0 1 1)⟩ }
      (cells 0x7000 [0x7E]) 0 [0])) 0x7000 1 = some ([0x7E], fl 0 0 0 0 0 0) := by decide
/-- The contended trace, step 6: the swap succeeds, and the flags are the winning candidate's. -/
theorem test_successful_swap :
    memOf (step (duo { zeroVp with
      flags := fl 1 1 1 1 1 1
      seq := .atomicCasLoop
      inflight := some ⟨.INC, .w8, 0x7000#64, true, .casSwap 0x7E#64 0x7F#64 (fl 1 0 0 0 0 0)⟩ }
      (cells 0x7000 [0x7E]) 0 [0])) 0x7000 1 = some ([0x7F], fl 1 0 0 0 0 0) := by decide
/-- A placed word is executed by the next step, from reset: NOT8 on byte 0, INC32 on register 0. -/
theorem test_with_fetch_word :
    memOf (step (State.reset.withFetchWord 16 0x0000)) 0 2 = some ([0xFF, 0], fl 0 0 0 0 0 0) ∧
    regOf (step (State.reset.withFetchWord 16 0x0288)) 0 = some (1#64, fl 0 0 0 0 0 0) ∧
    faultOf (step (State.reset.withFetchWord 16 0x0700)) = some (.illegal .UD_RESERVED, .unsupportedTrap, false) := by
  decide
/-- A step from reset with nothing placed: the run has ended. -/
theorem test_reset_has_no_step : isNext (step State.reset) = false ∧ State.reset.endedWell = true := by decide
/-- The packed flags of R28: all six set, and none. -/
theorem test_packed_flags : (fl 1 1 1 1 1 1).packInto 0 = 0x8D5#32 ∧ (fl 0 0 0 0 0 0).packInto 0xFFFFFFFF#32 = 0xFFFFF72A#32 := by
  decide

/-! ### For each statement with hypotheses, values that meet them -/

/-- A virtual processor about to swap, its cell still holding the value observed where memory is `cells 0x7000 [0x7E]`. -/
def swapping : VP := { zeroVp with
  seq := .atomicCasLoop
  inflight := some ⟨.INC, .w8, 0x7000#64, true, .casSwap 0x7E#64 0x7F#64 (fl 0 0 0 0 0 0)⟩ }

/-- A virtual processor in the middle of a plain `LOCK INC32` on the misaligned cell at 0x1001. -/
def plainVp (ph : Phase) : VP := { zeroVp with
  seq := .directRmw
  inflight := some ⟨.INC, .w32, 0x1001#64, true, ph⟩ }

theorem alone_solo (p : VP) (m : Memory) (l : Nat) : Alone (solo p m l) 0 := by
  intro u q hq hu
  cases u with
  | zero => exact absurd rfl hu
  | succ u => simp [solo] at hq

theorem not_alone_duo (p : VP) (m : Memory) (l : Nat) (sc : List Nat) : ¬Alone (duo p m l sc) 0 := by
  intro h
  rcases h 1 other rfl (by decide) with h | ⟨-, h⟩
  · exact h rfl
  · cases h

/-- ReservedEncodingsDecodeToTheirCode and StepTrapsOnReservedEncoding: each row of the table at a boundary of its field, the
words just outside, and a word under two rows, whose code is the order of R128. -/
theorem witness_ReservedEncodingsDecodeToTheirCode :
    reservedCode 0x0800#16 = some .UD_RESERVED ∧ reservedCode 0x0500#16 = some .UD_RESERVED ∧
    reservedCode 0x0480#16 = some .UD_RESERVED ∧ reservedCode 0x0402#16 = some .UD_SUBOPCODE ∧
    reservedCode 0x0407#16 = some .UD_SUBOPCODE ∧ reservedCode 0x0401#16 = none ∧ reservedCode 0x03FF#16 = none ∧
    reservedCode 0x0C02#16 = some .UD_RESERVED := by decide
/-- MultiplexedEntryIsTheByteCommand: a word for each clause. -/
theorem witness_MultiplexedEntryIsTheByteCommand :
    ((0x0480#16).toNat / 256 = 4 ∧ (0x0480#16).toNat / 128 % 2 = 1) ∧
    ((0x0478#16).toNat / 256 = 4 ∧ (0x0478#16).toNat / 128 % 2 = 0 ∧ (0x0478#16).toNat % 8 = 0) ∧
    ((0x0411#16).toNat / 256 = 4 ∧ (0x0411#16).toNat / 128 % 2 = 0 ∧ (0x0411#16).toNat % 8 = 1) ∧
    ((0x0402#16).toNat / 256 = 4 ∧ (0x0402#16).toNat / 128 % 2 = 0 ∧ 2 ≤ (0x0402#16).toNat % 8) := by decide
/-- OperationIdentities: each corner value. -/
theorem witness_OperationIdentities :
    (∃ v : BitVec Width.w8.bits, v.toNat = 2 ^ Width.w8.bits - 1) ∧ (∃ v : BitVec Width.w32.bits, v.toNat = 0) ∧
    (∃ v : BitVec Width.w16.bits, v.toNat = 2 ^ (Width.w16.bits - 1)) :=
  ⟨⟨0xFF#8, by decide⟩, ⟨0#32, by decide⟩, ⟨0x8000#16, by decide⟩⟩
/-- PackedFlagsLayout: bit 1 is no flag's bit. -/
theorem witness_PackedFlagsLayout : ∃ k : Nat, k ≠ 0 ∧ k ≠ 2 ∧ k ≠ 4 ∧ k ≠ 6 ∧ k ≠ 7 ∧ k ≠ 11 := ⟨1, by decide⟩
/-- RegisterLocationBits: the whole register, and the second byte. -/
theorem witness_RegisterLocationBits : (∃ off n : Nat, off = 0 ∧ off + n = 8) ∧ (∃ off n : Nat, off = 1 ∧ n = 1 ∧ off + n ≤ 8) :=
  ⟨⟨0, 8, rfl, rfl⟩, ⟨1, 1, rfl, rfl, by decide⟩⟩
/-- MemoryIsLittleEndian: the last eight bytes of memory, and a narrower read. -/
theorem witness_MemoryIsLittleEndian :
    (cells 0x10 [1, 2]).wf = true ∧ (0xFFFFFFFFFFFFFFF8#64).toNat + 8 ≤ 2 ^ 64 ∧ 4 ≤ 8 := by decide
/-- CompareAndSwap: equal and different. -/
theorem witness_CompareAndSwap :
    memRead (cells 0x10 [1]) 0x10#64 1 = 1#8 ∧ memRead (cells 0x10 [1]) 0x10#64 1 ≠ 2#8 := by decide

/-- The register results of NOT, NEG, INC, DEC and the multiplexed entry: byte 0 and byte 1 of the last register. -/
theorem witness_RegisterResults :
    (∃ s p, Ready s p ∧ AtReg s 15 0) ∧ (∃ s p, Ready s p ∧ AtReg s 15 1) :=
  ⟨⟨solo zeroVp [] 15, zeroVp, ⟨rfl, rfl, rfl, rfl⟩, rfl⟩, ⟨solo zeroVp [] 31, zeroVp, ⟨rfl, rfl, rfl, rfl⟩, rfl⟩⟩
/-- The memory results: locked and aligned on a host with the swap, locked and misaligned on one without, plain at the
top of memory. -/
theorem witness_MemoryResults :
    (∃ s p, Ready s p ∧ AtMem s 0x1000#64 ∧ (0x1000#64).toNat + 4 ≤ 2 ^ 64 ∧ Alone s s.port.vp ∧
      (true = true → (0x1000#64).toNat % 4 = 0 → HostCaps.cas32 s.host = true)) ∧
    (∃ s p, Ready s p ∧ AtMem s 0x1001#64 ∧ (0x1001#64).toNat + 4 ≤ 2 ^ 64 ∧ Alone s s.port.vp ∧
      s.host.cas32 = false ∧ (true = true → (0x1001#64).toNat % 4 = 0 → HostCaps.cas32 s.host = true)) ∧
    (∃ s p, Ready s p ∧ AtMem s 0xFFFFFFFFFFFFFFF8#64 ∧ (0xFFFFFFFFFFFFFFF8#64).toNat + 8 ≤ 2 ^ 64 ∧
      Alone s s.port.vp) :=
  ⟨⟨solo zeroVp [] 0x1000, zeroVp, ⟨rfl, rfl, rfl, rfl⟩, rfl, by decide, alone_solo _ _ _, fun _ _ => rfl⟩,
   ⟨{ solo zeroVp [] 0x1001 with host := ⟨true, false, true⟩ }, zeroVp, ⟨rfl, rfl, rfl, rfl⟩, rfl, by decide,
     fun u q hq hu => alone_solo zeroVp [] 0x1001 u q hq hu, rfl, fun _ h => absurd h (by decide)⟩,
   ⟨solo zeroVp [] 0xFFFFFFFFFFFFFFF8, zeroVp, ⟨rfl, rfl, rfl, rfl⟩, rfl, by decide, alone_solo _ _ _⟩⟩

theorem witness_LockAt16BitsViolates :
    ∃ (i : Instr) (s : State) (p : VP), i.width = .w16 ∧ i.lock = true ∧ Ready s p :=
  ⟨.inc16 true false, solo zeroVp [] 0, zeroVp, rfl, rfl, rfl, rfl, rfl, rfl⟩
theorem witness_FailedResolverTraps :
    ∃ (i : Instr) (s : State) (p : VP), ¬(i.width = .w16 ∧ i.lock = true) ∧ Ready s p ∧ s.port.payload.resOk = false :=
  ⟨.inc16 false false, { solo zeroVp [] 0 with port := ⟨0, ⟨false, 0⟩⟩ }, zeroVp, by decide, ⟨rfl, rfl, rfl, rfl⟩, rfl⟩
/-- LockOnRegisterViolates: at 8 bits on byte 1 of the last register, and at 16 bits. -/
theorem witness_LockOnRegisterViolates :
    (∃ (i : Instr) (s : State) (p : VP) (r : Fin 16) (off : Nat), i.width = .w8 ∧ i.lock = true ∧ i.isreg = true ∧
      Ready s p ∧ off ≤ 1 ∧ (off = 1 → i.width = .w8) ∧ AtReg s r off) ∧
    (∃ (i : Instr) (s : State) (p : VP) (r : Fin 16) (off : Nat), i.width = .w16 ∧ i.lock = true ∧ i.isreg = true ∧
      Ready s p ∧ off ≤ 1 ∧ (off = 1 → i.width = .w8) ∧ AtReg s r off) :=
  ⟨⟨.dec8 true true, solo zeroVp [] 31, zeroVp, 15, 1, rfl, rfl, rfl, ⟨rfl, rfl, rfl, rfl⟩, by decide, fun _ => rfl, rfl⟩,
   ⟨.dec16 true true, solo zeroVp [] 15, zeroVp, 15, 0, rfl, rfl, rfl, ⟨rfl, rfl, rfl, rfl⟩, by decide,
     fun h => absurd h (by decide), rfl⟩⟩
theorem witness_IncapableHostTraps :
    ∃ (i : Instr) (s : State) (p : VP) (a : Addr), i.width ≠ .w16 ∧ i.lock = true ∧ i.isreg = false ∧ Ready s p ∧
      AtMem s a ∧ a.toNat + i.width.bytes ≤ 2 ^ 64 ∧ a.toNat % i.width.bytes = 0 ∧
      (i.width = .w8 → s.host.cas8 = false) ∧ (i.width = .w32 → s.host.cas32 = false) ∧
      (i.width = .w64 → s.host.cas64 = false) :=
  ⟨.dec64 true false, { solo zeroVp [] 0x2000 with host := ⟨true, true, false⟩ }, zeroVp, 0x2000#64, by decide, rfl, rfl,
    ⟨rfl, rfl, rfl, rfl⟩, rfl, by decide, by decide, by decide, by decide, fun _ => rfl⟩
theorem witness_FaultReadsAndChangesNothing :
    (∃ (i : Instr) (s t : State) (p q : VP), exec i s = .next t ∧ s.vps[s.port.vp]? = some p ∧
      t.vps[s.port.vp]? = some q ∧ q.fault ≠ .none) ∧
    (∃ (s t : State) (v : Nat) (p q : VP) (f : InFlight), s.vps[v]? = some p ∧ p.inflight = some f ∧
      stepVp v s = .next t ∧ t.vps[v]? = some q) :=
  ⟨⟨.inc16 true false, solo zeroVp [] 0, _, zeroVp, _, rfl, rfl, rfl, by decide⟩,
   ⟨duo swapping [] 0 [], _, 0, swapping, _, _, rfl, rfl, rfl, rfl⟩⟩
/-- StuckAfterAbortOrFault: each clause. -/
theorem witness_StuckAfterAbortOrFault :
    (∃ (s : State) (p : VP), s.vps[s.port.vp]? = some p ∧ s.abort = true) ∧
    (∃ (s : State) (p : VP), s.vps[s.port.vp]? = some p ∧ s.abort = false ∧ p.fault ≠ .none) ∧
    (∃ (s s' : State) (v : Nat) (p : VP), s.nextVp = some (v, s') ∧ s.vps[v]? = some p) :=
  ⟨⟨{ solo zeroVp [] 0 with abort := true }, zeroVp, rfl, rfl⟩,
   ⟨solo { zeroVp with fault := .illegal .UD_RESOLVE } [] 0, _, rfl, rfl, by decide⟩,
   ⟨solo other [] 0, _, 0, other, rfl, rfl⟩⟩
/-- PayloadOutsideContractRefused: `off = 2`, `off = 1` at a width above 8, bit 7 set, and one byte past the top. -/
theorem witness_PayloadOutsideContractRefused :
    (∃ (i : Instr) (s : State) (p : VP), ¬(i.width = .w16 ∧ i.lock = true) ∧ Ready s p ∧ s.port.payload.resOk = true ∧
      i.isreg = true ∧ 2 ≤ s.port.payload.locRef.toNat / 16 % 8) ∧
    (∃ (i : Instr) (s : State) (p : VP), Ready s p ∧ s.port.payload.resOk = true ∧ i.isreg = true ∧
      s.port.payload.locRef.toNat / 16 % 8 = 1 ∧ i.width ≠ .w8) ∧
    (∃ (i : Instr) (s : State) (p : VP), Ready s p ∧ s.port.payload.resOk = true ∧ i.isreg = true ∧
      s.port.payload.locRef.toNat / 128 ≠ 0) ∧
    (∃ (i : Instr) (s : State) (p : VP), Ready s p ∧ s.port.payload.resOk = true ∧ i.isreg = false ∧
      2 ^ 64 < s.port.payload.locRef.toNat + i.width.bytes) :=
  ⟨⟨.not8 false true, solo zeroVp [] 0x20, zeroVp, by decide, ⟨rfl, rfl, rfl, rfl⟩, rfl, rfl, by decide⟩,
   ⟨.not16 false true, solo zeroVp [] 0x10, zeroVp, ⟨rfl, rfl, rfl, rfl⟩, rfl, rfl, by decide, by decide⟩,
   ⟨.not8 false true, solo zeroVp [] 0x80, zeroVp, ⟨rfl, rfl, rfl, rfl⟩, rfl, rfl, by decide⟩,
   ⟨.not16 false false, solo zeroVp [] 0xFFFFFFFFFFFFFFFF, zeroVp, ⟨rfl, rfl, rfl, rfl⟩, rfl, rfl, by decide⟩⟩
theorem witness_RegisterFormFrame :
    ∃ (i : Instr) (s t : State) (p : VP), i.isreg = true ∧ s.vps[s.port.vp]? = some p ∧ exec i s = .next t := by
  obtain ⟨t, h⟩ := of_isNext (o := exec (.dec16 false true) (solo zeroVp [] 3)) (by decide)
  exact ⟨_, _, t, zeroVp, rfl, rfl, h⟩
theorem witness_MemoryFormFrame :
    ∃ (i : Instr) (s t : State) (p : VP), i.isreg = false ∧ s.mem.wf = true ∧ s.vps[s.port.vp]? = some p ∧
      exec i s = .next t := by
  obtain ⟨t, h⟩ := of_isNext (o := exec (.dec64 true false) (solo zeroVp [] 8)) (by decide)
  exact ⟨_, _, t, zeroVp, rfl, rfl, rfl, h⟩

theorem witness_InFlightStepFrame :
    ∃ (s t : State) (v : Nat) (p : VP) (f : InFlight), s.coherent = true ∧ s.vps[v]? = some p ∧ p.inflight = some f ∧
      stepVp v s = .next t := by
  obtain ⟨t, h⟩ := of_isNext (o := stepVp 0 (duo swapping (cells 0x7000 [0x7E]) 0 [])) (by decide)
  exact ⟨_, t, 0, swapping, _, by decide, rfl, rfl, h⟩
/-- PathSelection: a width other than 16, and a virtual processor ready for a 16-bit one. -/
theorem witness_PathSelection : Width.w64 ≠ .w16 ∧ ∃ s p, Ready s p :=
  ⟨by decide, solo zeroVp [] 0, zeroVp, rfl, rfl, rfl, rfl⟩
/-- CommandInFlightIsNeverStuck: one in the CAS loop, and one with one byte left to write. -/
theorem witness_CommandInFlightIsNeverStuck :
    (∃ (s : State) (v : Nat) (p : VP) (f : InFlight), s.coherent = true ∧ s.abort = false ∧ s.vps[v]? = some p ∧
      p.inflight = some f ∧ p.seq = .atomicCasLoop) ∧
    (∃ (s : State) (v : Nat) (p : VP) (f : InFlight), s.coherent = true ∧ s.abort = false ∧ s.vps[v]? = some p ∧
      p.inflight = some f ∧ p.seq = .directRmw ∧ accessesLeft f = 1) :=
  ⟨⟨duo swapping [] 0 [], 0, swapping, _, by decide, rfl, rfl, rfl, rfl⟩,
   ⟨duo { zeroVp with seq := .directRmw, inflight := some ⟨.INC, .w16, 0x3001#64, false, .writing [(1, 0#8)]⟩ } [] 0 [],
     0, _, _, by decide, rfl, rfl, rfl, rfl, rfl⟩⟩
theorem witness_CommandRunsToCompletion :
    (∃ (s t : State) (v : Nat) (p : VP) (f : InFlight), s.vps[v]? = some p ∧ p.inflight = some f ∧ step s = .next t) ∧
    (∃ (s : State) (p : VP) (f : InFlight), s.coherent = true ∧ s.abort = false ∧ s.vps[s.port.vp]? = some p ∧
      p.inflight = some f) := by
  obtain ⟨t, h⟩ := of_isNext (o := step (duo swapping [] 0 [1])) (by decide)
  exact ⟨⟨_, t, 0, swapping, _, rfl, rfl, h⟩, ⟨duo swapping [] 0 [], swapping, _, by decide, rfl, rfl, rfl⟩⟩
/-- ContendedPlainCommandReadsOneByte: the last byte of a misaligned locked operand, and a byte command at the top of
memory. -/
theorem witness_ContendedPlainCommandReadsOneByte :
    (∃ (i : Instr) (s : State) (p : VP) (a : Addr) (k : Nat) (rest : List Nat), i.isreg = false ∧ Ready s p ∧ AtMem s a ∧
      a.toNat + i.width.bytes ≤ 2 ^ 64 ∧ ¬Alone s s.port.vp ∧
      ¬(i.lock = true ∧ (i.width = .w16 ∨ a.toNat % i.width.bytes = 0)) ∧ i.width ≠ .w8 ∧ s.script = k :: rest ∧
      k < i.width.bytes) ∧
    (∃ (i : Instr) (s : State) (p : VP) (a : Addr), i.isreg = false ∧ Ready s p ∧ AtMem s a ∧
      a.toNat + i.width.bytes ≤ 2 ^ 64 ∧ ¬Alone s s.port.vp ∧
      ¬(i.lock = true ∧ (i.width = .w16 ∨ a.toNat % i.width.bytes = 0)) ∧ i.width = .w8) :=
  ⟨⟨.inc32 true false, duo zeroVp [] 0x1001 [3], zeroVp, 0x1001#64, 3, [], rfl, ⟨rfl, rfl, rfl, rfl⟩, rfl, by decide,
     not_alone_duo _ _ _ _, by decide, by decide, rfl, by decide⟩,
   ⟨.neg8 false false, duo zeroVp [] 0xFFFFFFFFFFFFFFFF [], zeroVp, 0xFFFFFFFFFFFFFFFF#64, rfl, ⟨rfl, rfl, rfl, rfl⟩, rfl,
     by decide, not_alone_duo _ _ _ _, by decide, rfl⟩⟩
/-- PlainReadStepReadsOneByte: two bytes left and the second chosen, and one byte left. -/
theorem witness_PlainReadStepReadsOneByte :
    (∃ (s : State) (p : VP) (f : InFlight) (todo : List Nat) (got : List (Nat × Byte)) (c k : Nat) (rest : List Nat),
      s.coherent = true ∧ s.vps[0]? = some p ∧ p.inflight = some f ∧ f.phase = .reading todo got ∧ 1 < todo.length ∧
      todo[c]? = some k ∧ s.script = c :: rest) ∧
    (∃ (s : State) (p : VP) (f : InFlight) (todo : List Nat) (got : List (Nat × Byte)) (k : Nat), s.coherent = true ∧
      s.vps[0]? = some p ∧ p.inflight = some f ∧ f.phase = .reading todo got ∧ todo = [k]) :=
  ⟨⟨duo (plainVp (.reading [0, 3] [(2, 7#8), (1, 9#8)])) [] 0 [1], _, _, _, _, 1, 3, [], by decide, rfl, rfl, rfl, by decide,
     rfl, rfl⟩,
   ⟨duo (plainVp (.reading [3] [(0, 8#8), (2, 7#8), (1, 9#8)])) [] 0 [], _, _, _, _, 3, by decide, rfl, rfl, rfl, rfl⟩⟩
/-- PlainWriteStepWritesOneByte: two bytes left and the second chosen, and one byte left. -/
theorem witness_PlainWriteStepWritesOneByte :
    (∃ (s : State) (p : VP) (f : InFlight) (todo : List (Nat × Byte)) (c : Nat) (kb : Nat × Byte) (rest : List Nat),
      s.coherent = true ∧ s.vps[0]? = some p ∧ p.inflight = some f ∧ f.phase = .writing todo ∧ 1 < todo.length ∧
      todo[c]? = some kb ∧ s.script = c :: rest) ∧
    (∃ (s : State) (p : VP) (f : InFlight) (todo : List (Nat × Byte)) (kb : Nat × Byte), s.coherent = true ∧
      s.vps[0]? = some p ∧ p.inflight = some f ∧ f.phase = .writing todo ∧ todo = [kb]) :=
  ⟨⟨duo (plainVp (.writing [(0, 1#8), (3, 2#8)])) [] 0 [1], _, _, _, 1, _, [], by decide, rfl, rfl, rfl, by decide, rfl, rfl⟩,
   ⟨duo (plainVp (.writing [(3, 2#8)])) [] 0 [], _, _, _, _, by decide, rfl, rfl, rfl, rfl⟩⟩
theorem witness_ContendedLockedCommandReadsAtomically :
    ∃ (i : Instr) (s : State) (p : VP) (a : Addr), i.isreg = false ∧ i.lock = true ∧ i.width ≠ .w16 ∧ Ready s p ∧
      AtMem s a ∧ a.toNat + i.width.bytes ≤ 2 ^ 64 ∧ ¬Alone s s.port.vp ∧ a.toNat % i.width.bytes = 0 ∧
      s.host.hasCas i.width = true :=
  ⟨.inc64 true false, duo zeroVp [] 0xFFFFFFFFFFFFFFF8 [], zeroVp, 0xFFFFFFFFFFFFFFF8#64, rfl, rfl, by decide,
    ⟨rfl, rfl, rfl, rfl⟩, rfl, by decide, not_alone_duo _ _ _ _, by decide, rfl⟩
/-- SwapCommitsOnceFromTheWinningCandidate: the cell as observed, and changed. -/
theorem witness_SwapCommitsOnceFromTheWinningCandidate :
    (∃ (s : State) (p : VP) (f : InFlight) (old cand : BitVec 64) (lf : Flags), s.coherent = true ∧
      s.vps[0]? = some p ∧ p.inflight = some f ∧ f.phase = .casSwap old cand lf ∧
      (memRead s.mem f.addr f.width.bytes).setWidth 64 = old) ∧
    (∃ (s : State) (p : VP) (f : InFlight) (old cand : BitVec 64) (lf : Flags), s.coherent = true ∧
      s.vps[0]? = some p ∧ p.inflight = some f ∧ f.phase = .casSwap old cand lf ∧
      (memRead s.mem f.addr f.width.bytes).setWidth 64 ≠ old) :=
  ⟨⟨duo swapping (cells 0x7000 [0x7E]) 0 [], swapping, _, _, _, _, by decide, rfl, rfl, rfl, by decide⟩,
   ⟨duo swapping (cells 0x7000 [0x80]) 0 [], swapping, _, _, _, _, by decide, rfl, rfl, rfl, by decide⟩⟩
/-- PlainBytesInAnyOrderMakeTheWholeCommand: a byte, and a misaligned locked quadword at the top of memory. -/
theorem witness_PlainBytesInAnyOrderMakeTheWholeCommand :
    (∃ (i : Instr) (s : State) (p : VP) (a : Addr), i.width = .w8 ∧ i.isreg = false ∧ s.mem.wf = true ∧ Ready s p ∧
      p.inflight = none ∧ AtMem s a ∧ a.toNat + i.width.bytes ≤ 2 ^ 64 ∧ ¬Alone s s.port.vp ∧
      ¬(i.lock = true ∧ (i.width = .w16 ∨ a.toNat % i.width.bytes = 0))) ∧
    (∃ (i : Instr) (s : State) (p : VP) (a : Addr), i.lock = true ∧ i.isreg = false ∧ s.mem.wf = true ∧ Ready s p ∧
      p.inflight = none ∧ AtMem s a ∧ a.toNat + i.width.bytes ≤ 2 ^ 64 ∧ ¬Alone s s.port.vp ∧
      ¬(i.lock = true ∧ (i.width = .w16 ∨ a.toNat % i.width.bytes = 0))) :=
  ⟨⟨.inc8 false false, duo zeroVp [] 0x10 [], zeroVp, 0x10#64, rfl, rfl, rfl, ⟨rfl, rfl, rfl, rfl⟩, rfl, rfl, by decide,
     not_alone_duo _ _ _ _, by decide⟩,
   ⟨.inc64 true false, duo zeroVp [] 0xFFFFFFFFFFFFFFF7 [], zeroVp, 0xFFFFFFFFFFFFFFF7#64, rfl, rfl, rfl,
     ⟨rfl, rfl, rfl, rfl⟩, rfl, rfl, by decide, not_alone_duo _ _ _ _, by decide⟩⟩
theorem witness_LockedCommandAloneTakesOneIteration :
    ∃ (i : Instr) (s : State) (p : VP) (a : Addr), i.isreg = false ∧ i.lock = true ∧ i.width ≠ .w16 ∧ Ready s p ∧
      p.inflight = none ∧ AtMem s a ∧ a.toNat + i.width.bytes ≤ 2 ^ 64 ∧ ¬Alone s s.port.vp ∧
      a.toNat % i.width.bytes = 0 ∧ s.host.hasCas i.width = true :=
  ⟨.neg8 true false, duo zeroVp [] 0xFFFFFFFFFFFFFFFF [], zeroVp, 0xFFFFFFFFFFFFFFFF#64, rfl, rfl, by decide,
    ⟨rfl, rfl, rfl, rfl⟩, rfl, rfl, by decide, not_alone_duo _ _ _ _, by decide, rfl⟩
/-- SequencerFollowsTheTransitionTable: a command handed over that stays in flight; a 32-bit register command, which goes
through `ZERO_EXTEND`; and in flight the last byte write, an atomic read, and a swap that succeeds and one that fails. -/
theorem witness_SequencerFollowsTheTransitionTable :
    (∃ (i : Instr) (s t : State) (p q : VP), Ready s p ∧ exec i s = .next t ∧ t.vps[s.port.vp]? = some q) ∧
    (∃ (i : Instr) (s t : State) (p q : VP) (r : Fin 16) (off : Nat), i.isreg = true ∧ i.lock = false ∧ i.width = .w32 ∧
      Ready s p ∧ off ≤ 1 ∧ (off = 1 → i.width = .w8) ∧ AtReg s r off ∧ exec i s = .next t ∧
      t.vps[s.port.vp]? = some q) ∧
    (∀ p ∈ [plainVp (.writing [(3, 0#8)]), { swapping with inflight := some ⟨.INC, .w8, 0x7000#64, true, .casRead⟩ }, swapping],
      ∀ m ∈ [cells 0x7000 [0x7E], cells 0x7000 [0x80]],
      ∃ (t : State) (q : VP) (f : InFlight), (duo p m 0 []).coherent = true ∧ (duo p m 0 []).vps[0]? = some p ∧
        p.inflight = some f ∧ stepVp 0 (duo p m 0 []) = .next t ∧ t.vps[0]? = some q) := by
  refine ⟨⟨.inc64 true false, duo zeroVp [] 8 [], _, zeroVp, _, ⟨rfl, rfl, rfl, rfl⟩, rfl, rfl⟩,
    ⟨.neg32 false true, solo zeroVp [] 15, _, zeroVp, _, 15, 0, rfl, rfl, rfl, ⟨rfl, rfl, rfl, rfl⟩, by decide,
      fun h => absurd h (by decide), rfl, rfl, rfl⟩, ?_⟩
  intro p hp m hm
  simp only [List.mem_cons, List.not_mem_nil, or_false] at hp hm
  rcases hp with rfl | rfl | rfl <;> rcases hm with rfl | rfl <;> exact ⟨_, _, _, by decide, rfl, rfl, rfl, rfl⟩
theorem witness_StepRunsTheDecodedInstruction :
    ∃ (s s' : State) (v : Nat) (p : VP) (c : Command) (rest : List Command) (i : Instr), s.abort = false ∧
      s.nextVp = some (v, s') ∧ s'.vps[v]? = some p ∧ p.inflight = none ∧ p.cmds = c :: rest ∧ decode c.word = .ok i :=
  ⟨duo zeroVp [] 0 [], _, 1, other, _, _, _, rfl, rfl, rfl, rfl, rfl, rfl⟩
theorem witness_StepTrapsOnReservedEncoding :
    ∃ (s s' : State) (v : Nat) (p : VP) (c : Command) (rest : List Command) (code : IllegalCode), s.abort = false ∧
      s.nextVp = some (v, s') ∧ s'.vps[v]? = some p ∧ p.inflight = none ∧ p.cmds = c :: rest ∧
      reservedCode c.word = some code :=
  ⟨solo (vpWith 0 0 Flags.clear [⟨0x0700#16, ⟨true, 0⟩⟩]) [] 0, _, 0, _, _, _, _, rfl, rfl, rfl, rfl, rfl, rfl⟩
/-- ScheduleIsFree: one that has a step among others, and one that is alone. -/
theorem witness_ScheduleIsFree :
    (∃ (s : State) (v : Nat) (s' : State), s.nextVp = some (v, s')) ∧
    (∃ (s : State) (v : Nat) (p : VP), s.vps[v]? = some p ∧ p.fault = .none ∧ (p.inflight ≠ none ∨ p.cmds ≠ []) ∧
      Alone s v) :=
  ⟨⟨solo other [] 0, 0, _, rfl⟩, ⟨solo other [] 0, 0, other, rfl, rfl, .inr (by decide), alone_solo _ _ _⟩⟩
/-- RunHasEndedExactlyWhenAbortedOrRunEnded: an ended run; one that has not ended, whose step answers a next state; and one
that has not ended, whose step refuses a payload outside the contract. -/
theorem witness_RunHasEndedExactlyWhenAbortedOrRunEnded :
    ((solo zeroVp [] 0).coherent = true ∧ (solo zeroVp [] 0).ended = true ∧
      (∀ p ∈ (solo zeroVp [] 0).vps, p.fault ≠ .none ∨ (p.inflight = none ∧ p.cmds = [])) ∧
      (solo zeroVp [] 0).abort = false) ∧
    ((solo other [] 0).coherent = true ∧ (solo other [] 0).ended = false ∧ isNext (step (solo other [] 0)) = true) ∧
    (∃ s : State, s.coherent = true ∧ s.ended = false ∧ step s = .refused .payloadOutsideContract) := by
  refine ⟨by decide, by decide, solo (vpWith 0 0 Flags.clear [⟨0x0008#16, ⟨true, 0x20#64⟩⟩]) [] 0, by decide, by decide, ?_⟩
  rfl
theorem witness_PlacedWordIsExecutedNext :
    ∃ (s : State) (p : VP) (others : List VP) (w : CmdWord) (i : Instr), s.vps = p :: others ∧ decode w = .ok i :=
  ⟨duo zeroVp [] 0 [], zeroVp, [other], 0x0411#16, _, rfl, rfl⟩
theorem witness_StepKeepsCoherence : ∃ s t : State, s.coherent = true ∧ step s = .next t := by
  obtain ⟨t, h⟩ := of_isNext (o := step (duo swapping (cells 0x7000 [0x7E]) 0 [0])) (by decide)
  exact ⟨_, t, by decide, h⟩
theorem witness_LaunchIsCoherent : Init.reset.vps ≠ [] ∧ Init.reset.mem.wf = true := by decide
theorem witness_ResetLeavesTheLaunchState :
    Init.reset.vps[1]? = some (Vector.replicate 16 0, Flags.clear, []) := by decide
/-- FaultRecordsAndConfigurationStay: a step while another virtual processor has a fault record. -/
theorem witness_FaultRecordsAndConfigurationStay :
    ∃ (s t : State) (v : Nat) (p : VP), step s = .next t ∧ s.vps[v]? = some p ∧ p.fault ≠ .none := by
  obtain ⟨t, h⟩ := of_isNext (o := step (duo { zeroVp with fault := .illegal .UD_RESOLVE } [] 0 [])) (by decide)
  exact ⟨_, t, 0, _, h, rfl, by decide⟩
theorem witness_StepChangesOneVirtualProcessor : ∃ s t : State, step s = .next t := by
  obtain ⟨t, h⟩ := of_isNext (o := step (duo zeroVp [] 0 [])) (by decide)
  exact ⟨_, t, h⟩
/-- RegistersAndFlagsArePrivate: two states that differ in a register and a flag of the other virtual processor. -/
theorem witness_RegistersAndFlagsArePrivate :
    ∃ s s' : State, SameFor 0 s s' ∧ s ≠ s' ∧ (∃ t, stepVp 0 s = .next t) ∧ (∃ t, stepVp 0 s' = .next t) := by
  refine ⟨duo other [] 0 [], { duo other [] 0 [] with vps := [other, { other with flags := fl 1 1 1 1 1 1 }.setReg 3 7] },
    ⟨rfl, rfl, rfl, rfl, rfl, rfl, rfl, rfl, ?_⟩, by decide, of_isNext (by decide), of_isNext (by decide)⟩
  intro u p q hp hq
  match u with
  | 0 => cases hp; cases hq; exact ⟨rfl, rfl, rfl, rfl⟩
  | 1 => cases hp; cases hq; exact ⟨rfl, rfl, rfl, rfl⟩
  | u + 2 => simp [duo] at hp
/-- LockedIncrementsLoseNoUpdate: one virtual processor in the middle of its increment, the other about to begin. -/
theorem witness_LockedIncrementsLoseNoUpdate :
    ∃ (w : Width) (a : Addr) (s t : State), OnlyLockedIncrements w a s ∧ step s = .next t ∧ allPending s = 2 := by
  obtain ⟨t, h⟩ := of_isNext (o := step (duo swapping (cells 0x7000 [0x7E]) 0 [0])) (by decide)
  refine ⟨.w8, 0x7000#64, _, t, ⟨by decide, rfl, by decide, by decide, rfl, ?_⟩, h, by decide⟩
  intro p hp
  rcases List.mem_cons.1 hp with rfl | hp
  · exact ⟨rfl, by decide, fun f hf => by cases hf; decide⟩
  · rw [List.mem_singleton.1 hp]
    exact ⟨rfl, by decide, fun f hf => nomatch hf⟩

end Sys2Proof.Tests
end

section
/-! The packed flags word (R28) and what reset leaves (R44, R230). -/

namespace Sys2Proof.Machine

/-- A flag moved to bit `p` of a word sits at bit `p` and nowhere else. -/
theorem getLsbD_flag_shiftLeft (b : Bool) {p : Nat} (hp : p < 32) (k : Nat) :
    ((BitVec.ofBool b).setWidth 32 <<< p).getLsbD k = (decide (k = p) && b) := by
  obtain below | rfl | above := Nat.lt_trichotomy k p
  · simp [below, below.ne]
  · simp [hp]
  · simp [above.ne', Nat.sub_ne_zero_of_lt above]

/-- The bits of the word that hold a flag are those of R28. -/
theorem getLsbD_flagMask (k : Nat) :
    (0x000008D5#32).getLsbD k = decide (k = 0 ∨ k = 2 ∨ k = 4 ∨ k = 6 ∨ k = 7 ∨ k = 11) := by
  by_cases hk : k < 32
  · have low : ∀ j : Fin 32, (0x000008D5#32).getLsbD j =
        decide (j.val = 0 ∨ j.val = 2 ∨ j.val = 4 ∨ j.val = 6 ∨ j.val = 7 ∨ j.val = 11) := by decide
    exact low ⟨k, hk⟩
  · rw [BitVec.getLsbD_of_ge _ _ (by omega)]
    exact (decide_eq_false (by omega)).symm

/-- Every bit of a packed word, at the places of R28 (D4). -/
theorem Flags.getLsbD_packInto (f : Flags) (word : BitVec 32) (k : Nat) :
    (f.packInto word).getLsbD k =
      if k = 0 then f.CF else if k = 2 then f.PF else if k = 4 then f.AF else if k = 6 then f.ZF
      else if k = 7 then f.SF else if k = 11 then f.OF else word.getLsbD k := by
  simp only [Flags.packInto, BitVec.getLsbD_or, BitVec.getLsbD_and, BitVec.getLsbD_not, getLsbD_flagMask,
    getLsbD_flag_shiftLeft, Nat.reduceLT]
  split_ifs with h0 h2 h4 h6 h7 h11
  case neg =>
    have inWord : word.getLsbD k = true → k < 32 := BitVec.lt_of_getLsbD
    simpa [h0, h2, h4, h6, h7, h11] using inWord
  all_goals
    subst k
    simp

/-- Unpacking reads back the record that was packed. -/
theorem Flags.unpack_packInto (f : Flags) (word : BitVec 32) : Flags.unpack (f.packInto word) = f := by
  simp only [Flags.unpack, Flags.getLsbD_packInto]
  rfl

/-- Settles O12: every clause reads one bit off the bit table of the packed word. -/
theorem packedFlagsLayout : Obligations.PackedFlagsLayout := by
  intro f word
  have bits := f.getLsbD_packInto word
  refine ⟨f.unpack_packInto word, bits 0, bits 2, bits 4, bits 6, bits 7, bits 11, fun k h0 h2 h4 h6 h7 h11 => ?_⟩
  rw [bits k, if_neg h0, if_neg h2, if_neg h4, if_neg h6, if_neg h7, if_neg h11]

/-- Each virtual processor starts from its own entry of `INIT`. -/
@[simp] theorem State.launch_vps_getElem? (init : Init) (v : Nat) :
    (State.launch init).vps[v]? = init.vps[v]?.map fun x => VP.launch x.1 x.2.1 x.2.2 :=
  List.getElem?_map

/-- `INIT` fixes the number of virtual processors. -/
@[simp] theorem State.launch_vps_length (init : Init) : (State.launch init).vps.length = init.vps.length :=
  List.length_map _

/-- Settles O54: the shared fields are those of `State.launch`, each virtual processor is that of `VP.launch`. -/
theorem resetLeavesTheLaunchState : Obligations.ResetLeavesTheLaunchState := by
  intro init
  refine ⟨rfl, rfl, rfl, State.launch_vps_length init, fun v regs flags cmds entry => ?_⟩
  rw [State.launch_vps_getElem?, entry]
  rfl

end Sys2Proof.Machine
end

section
/-! The opcode table (R87) read field by field: a row fixes `zero`, `entry`, the width and, on the multiplexed entry,
`reg`. The bit patterns of the rows and the decoder are each shown to be this reading. -/

namespace Sys2Proof

/-- The direct entry of a family (R87). -/
def Family.entry : Family → BitVec 3
  | .NOT => 0
  | .NEG => 1
  | .INC => 2
  | .DEC => 3

/-- The value of `reg` that the row fixes: only the rows of the multiplexed entry fix one (R87, R190). -/
def Instr.regSel? : Instr → Option (BitVec 3)
  | .incdec8Inc _ _ => some 0
  | .incdec8Dec _ _ => some 1
  | _ => none

/-- The value of `entry` that the row fixes (R87). -/
def Instr.entry (i : Instr) : BitVec 3 := if i.regSel?.isSome then 4 else i.family.entry

/-- The fields lie in the row of the instruction (R87): the fixed ones have the row's value, and the width bits select
its width (R113, R114). -/
def Instr.InRow (i : Instr) (f : CmdFields) : Prop :=
  f.zero = 0 ∧ f.entry = i.entry ∧ selectWidth f.wide f.rexw f.osz = i.width ∧ ∀ r ∈ i.regSel?, f.reg = r

/-! The bit pattern of a row -/

/-- Words with the same field hold the same bits there. -/
theorem getLsbD_eq_of_extractLsb'_eq {a b : CmdWord} {start len k : Nat}
    (h : a.extractLsb' start len = b.extractLsb' start len) (hstart : start ≤ k) (hend : k < start + len) :
    a.getLsbD k = b.getLsbD k := by
  have hbit := congrArg (·.getLsbD (k - start)) h
  simpa [BitVec.getLsbD_extractLsb', Nat.add_sub_cancel' hstart, show k - start < len by omega] using hbit

/-- The fields of R81 cover the word. -/
theorem cmdFields_injective : Function.Injective cmdFields := by
  intro a b h
  simp only [cmdFields, CmdFields.mk.injEq] at h
  obtain ⟨hzero, hentry, hwide, hrexw, hosz, hlock, hisreg, hreg⟩ := h
  refine BitVec.eq_of_getLsbD_eq fun k hk => ?_
  obtain hk' | hk' | rfl | rfl | rfl | rfl | rfl | hk' :
      11 ≤ k ∨ (8 ≤ k ∧ k < 11) ∨ k = 7 ∨ k = 6 ∨ k = 5 ∨ k = 4 ∨ k = 3 ∨ k < 3 := by omega
  · exact getLsbD_eq_of_extractLsb'_eq hzero hk' hk
  · exact getLsbD_eq_of_extractLsb'_eq hentry hk'.1 hk'.2
  · exact hwide
  · exact hrexw
  · exact hosz
  · exact hlock
  · exact hisreg
  · exact getLsbD_eq_of_extractLsb'_eq hreg k.zero_le (by omega)

/-- The bitwise and acts on each field by itself. -/
theorem cmdFields_and (a b : CmdWord) : cmdFields (a &&& b) =
    { zero := (cmdFields a).zero &&& (cmdFields b).zero, entry := (cmdFields a).entry &&& (cmdFields b).entry
      wide := (cmdFields a).wide && (cmdFields b).wide, rexw := (cmdFields a).rexw && (cmdFields b).rexw
      osz := (cmdFields a).osz && (cmdFields b).osz, lock := (cmdFields a).lock && (cmdFields b).lock
      isreg := (cmdFields a).isreg && (cmdFields b).isreg, reg := (cmdFields a).reg &&& (cmdFields b).reg } := by
  simp [cmdFields, BitVec.extractLsb'_and]

/-- The bits that a row fixes: `rexw` from 16 bits up, `osz` only where `rexw` is 0, `reg` on the multiplexed entry. -/
theorem cmdFields_rowMask (i : Instr) : cmdFields i.rowMask =
    { zero := BitVec.allOnes 5, entry := BitVec.allOnes 3, wide := true, rexw := i.width != .w8
      osz := i.width == .w16 || i.width == .w32, lock := false, isreg := false
      reg := if i.regSel?.isSome then BitVec.allOnes 3 else 0 } := by
  cases i <;> simp [cmdFields, Instr.rowMask, Instr.width, Instr.regSel?]

/-- The values to which a row fixes them. -/
theorem cmdFields_rowMatch (i : Instr) : cmdFields i.rowMatch =
    { zero := 0, entry := i.entry, wide := i.width != .w8, rexw := i.width == .w64, osz := i.width == .w16
      lock := false, isreg := false, reg := i.regSel?.getD 0 } := by
  cases i <;> simp [cmdFields, Instr.rowMatch, Instr.width, Instr.regSel?, Instr.entry, Instr.family, Family.entry]

/-- The width bits under the mask are the row's exactly when they select the row's width (R113, R114). -/
theorem selectWidth_eq_iff (wide rexw osz : Bool) (w : Width) : selectWidth wide rexw osz = w ↔
    wide = (w != .w8) ∧ (rexw && w != .w8) = (w == .w64) ∧ (osz && (w == .w16 || w == .w32)) = (w == .w16) := by
  revert wide rexw osz
  cases w <;> decide

/-- The field `reg` under the mask is the row's exactly when it has the value that the row fixes, if it fixes one. -/
theorem reg_mask_eq_iff (reg : BitVec 3) (sel : Option (BitVec 3)) :
    reg &&& (if sel.isSome then BitVec.allOnes 3 else 0) = sel.getD 0 ↔ ∀ r ∈ sel, reg = r := by
  cases sel with
  | none => simp
  | some r => simp [-BitVec.reduceAllOnes]

/-- A word matches the bit pattern of a row exactly when its fields lie in the row. -/
theorem rowMatch_iff_inRow (w : CmdWord) (i : Instr) : w &&& i.rowMask = i.rowMatch ↔ i.InRow (cmdFields w) := by
  rw [← cmdFields_injective.eq_iff, cmdFields_and, cmdFields_rowMask, cmdFields_rowMatch, Instr.InRow,
    selectWidth_eq_iff, ← reg_mask_eq_iff]
  simp only [BitVec.and_allOnes, CmdFields.mk.injEq, Bool.and_true, Bool.and_false, true_and, and_assoc]

/-! The decoder -/

section InstrOf

variable (f : Family) (w : Width) (lock isreg : Bool)

@[simp] theorem instrOf_family : (instrOf f w lock isreg).family = f := by cases f <;> cases w <;> rfl

@[simp] theorem instrOf_width : (instrOf f w lock isreg).width = w := by cases f <;> cases w <;> rfl

@[simp] theorem instrOf_lock : (instrOf f w lock isreg).lock = lock := by cases f <;> cases w <;> rfl

@[simp] theorem instrOf_isreg : (instrOf f w lock isreg).isreg = isreg := by cases f <;> cases w <;> rfl

@[simp] theorem instrOf_regSel? : (instrOf f w lock isreg).regSel? = none := by cases f <;> cases w <;> rfl

@[simp] theorem instrOf_entry : (instrOf f w lock isreg).entry = f.entry := by simp [Instr.entry]

end InstrOf

/-- An instruction of a direct entry is the one of its family and width with its operand bits. -/
theorem instrOf_of_regSel?_eq_none {i : Instr} (h : i.regSel? = none) :
    instrOf i.family i.width i.lock i.isreg = i := by
  cases i with
  | incdec8Inc | incdec8Dec => cases h
  | _ => rfl

/-- A direct entry decodes to its family's instruction at the selected width (R111 to R114). -/
theorem decodeFields_of_family_entry {f : CmdFields} (hzero : f.zero = 0) {fam : Family}
    (hentry : f.entry = fam.entry) : decodeFields f =
    .ok (instrOf fam (selectWidth f.wide f.rexw f.osz) f.lock f.isreg) := by
  cases fam <;> simp [decodeFields, hzero, hentry, Family.entry]

/-- The instruction of a direct entry's family at the selected width has the fields in its row. -/
theorem instrOf_inRow {f : CmdFields} (hzero : f.zero = 0) {fam : Family} (hentry : f.entry = fam.entry)
    (lock isreg : Bool) : (instrOf fam (selectWidth f.wide f.rexw f.osz) lock isreg).InRow f :=
  ⟨hzero, by simp [hentry], by simp, by simp⟩

/-- The multiplexed entry's byte form is the width 8 of the byte dispatcher (R113). -/
theorem selectWidth_eq_w8_iff (wide rexw osz : Bool) : selectWidth wide rexw osz = .w8 ↔ wide = false := by
  revert wide rexw osz
  decide

/-- Below the reserved values, an `entry` is the multiplexed one or that of a family (R87, R89). -/
theorem entry_cases {entry : BitVec 3} (h : ¬ 5 ≤ entry.toNat) :
    entry = 4 ∨ ∃ fam : Family, entry = fam.entry := by
  obtain rfl | rfl | rfl | rfl | rfl : entry = 0 ∨ entry = 1 ∨ entry = 2 ∨ entry = 3 ∨ entry = 4 := by bv_omega
  · exact .inr ⟨.NOT, rfl⟩
  · exact .inr ⟨.NEG, rfl⟩
  · exact .inr ⟨.INC, rfl⟩
  · exact .inr ⟨.DEC, rfl⟩
  · exact .inl rfl

/-- What the decoder answers has the fields in its row and carries their operand bits. -/
theorem inRow_of_decodeFields {f : CmdFields} {i : Instr} (h : decodeFields f = .ok i) :
    i.InRow f ∧ i.lock = f.lock ∧ i.isreg = f.isreg := by
  by_cases hreserved : f.zero ≠ 0 ∨ 5 ≤ f.entry.toNat
  · rw [decodeFields, if_pos hreserved] at h
    cases h
  obtain ⟨hzero, hlow⟩ := not_or.1 hreserved
  have hzero := not_not.1 hzero
  obtain hmux | ⟨fam, hentry⟩ := entry_cases hlow
  · simp only [decodeFields, if_neg hreserved, if_pos hmux] at h
    split_ifs at h with hwide h0 h1 <;> cases h
    all_goals have hwidth := (selectWidth_eq_w8_iff f.wide f.rexw f.osz).2 (Bool.eq_false_of_not_eq_true hwide)
    · exact ⟨⟨hzero, hmux, hwidth, by simpa [Instr.regSel?] using h0⟩, rfl, rfl⟩
    · exact ⟨⟨hzero, hmux, hwidth, by simpa [Instr.regSel?] using h1⟩, rfl, rfl⟩
  · rw [decodeFields_of_family_entry hzero hentry] at h
    cases h
    exact ⟨instrOf_inRow hzero hentry .., by simp, by simp⟩

/-- Fields in the row of a direct entry's instruction, with its operand bits, decode to it. -/
theorem decodeFields_of_inRow_direct {f : CmdFields} {i : Instr} (hdirect : i.regSel? = none) (h : i.InRow f)
    (hlock : i.lock = f.lock) (hisreg : i.isreg = f.isreg) : decodeFields f = .ok i := by
  obtain ⟨hzero, hentry, hwidth, -⟩ := h
  have hfamily : f.entry = i.family.entry := by simpa [Instr.entry, hdirect] using hentry
  rw [decodeFields_of_family_entry hzero hfamily, hwidth, ← hlock, ← hisreg, instrOf_of_regSel?_eq_none hdirect]

/-- Fields in the row of an instruction, with its operand bits, decode to it. -/
theorem decodeFields_of_inRow {f : CmdFields} {i : Instr} (h : i.InRow f) (hlock : i.lock = f.lock)
    (hisreg : i.isreg = f.isreg) : decodeFields f = .ok i := by
  cases i with
  | incdec8Inc lock isreg | incdec8Dec lock isreg =>
    obtain ⟨hzero, hentry, hwidth, hreg⟩ := h
    have hwide := (selectWidth_eq_w8_iff ..).1 hwidth
    have hmux : f.entry = 4 := hentry
    have hsub := hreg _ rfl
    simp only [Instr.lock, Instr.isreg] at hlock hisreg
    simp [decodeFields, hzero, hmux, hwide, hsub, hlock, hisreg]
  | _ => exact decodeFields_of_inRow_direct rfl h hlock hisreg

/-- Settles O2: the bit pattern of a row and the decoder both say that the fields lie in the row. -/
theorem decodeIsTheOpcodeTable : Obligations.DecodeIsTheOpcodeTable := by
  intro w i
  rw [rowMatch_iff_inRow]
  exact ⟨inRow_of_decodeFields, fun ⟨hrow, hlock, hisreg⟩ => decodeFields_of_inRow hrow hlock hisreg⟩

end Sys2Proof
end

section
/-! The contract of the operation functions (R129) and the sequencer's ways out of `RESOLVE_OPERAND` (R115, R119, R125):
what `execute` does on a ready virtual processor, and what a resolved command does, one equation for each way. -/

namespace Sys2Proof.Machine

open Sys2Proof.Claims

/-! The operation functions -/

/-- Settles O10: the definition of each family writes its own flags, from the operand alone, and reads no other. -/
theorem operationContract : Obligations.OperationContract := by
  intro f w v y fin fin'
  cases f with
  | NOT => exact ⟨rfl, rfl, fun _ => rfl, nofun, nofun⟩
  | NEG => exact ⟨rfl, rfl, nofun, fun _ => rfl, nofun⟩
  | INC | DEC => exact ⟨rfl, rfl, nofun, nofun, fun _ => ⟨rfl, rfl⟩⟩

/-! Taking a fault leaves the state that R201 and R203 give -/

theorem raiseIllegal_eq_illegalTaken (s : State) (v : Nat) (p : VP) (code : IllegalCode) :
    s.raiseIllegal v p code = illegalTaken s v p code := rfl

theorem raiseViolation_eq_violationTaken (s : State) (v : Nat) (p : VP) (code : ViolationCode) :
    s.raiseViolation v p code = violationTaken s v p code := rfl

/-! `execute` on a ready virtual processor -/

section Ready

variable {s : State} {p : VP} (ready : Ready s p)
include ready

/-- A lock at 16 bits violates before the payload is looked at (R115). -/
theorem execute_lock_w16 (f : Family) (isreg : Bool) :
    execute f .w16 true isreg s = .next (s.raiseViolation s.port.vp p .IV_LOCK_16) := by
  obtain ⟨hvp, habort, hfault, hseq⟩ := ready
  simp [execute, hvp, habort, hfault, hseq]

/-- A command whose location the resolver gives goes on with it (R117). -/
theorem execute_of_resolve {w : Width} {lock isreg : Bool} {loc : Location} (f : Family)
    (hlock : ¬(w = .w16 ∧ lock = true)) (hok : s.port.payload.resOk = true)
    (hloc : resolve w isreg s.port.payload.locRef = .ok loc) :
    execute f w lock isreg s = .next (s.runResolved s.port.vp p f w lock isreg loc) := by
  obtain ⟨hvp, habort, hfault, hseq⟩ := ready
  simp [execute, hvp, habort, hfault, hseq, hlock, hok, hloc]

end Ready

/-- Settles O26: every arm of `exec` is `execute`, where a lock at 16 bits violates before the operand is resolved. -/
theorem lockAt16BitsViolates : Obligations.LockAt16BitsViolates := by
  intro i s p hwidth hlock ready
  rw [exec_eq_execute, hwidth, hlock, execute_lock_w16 ready, raiseViolation_eq_violationTaken]

/-! A resolved command -/

/-- A memory operand that does not run past the top of memory stands where the resolver says (R51, R84). -/
theorem resolve_mem {w : Width} {a : Addr} (hfits : a.toNat + w.bytes ≤ 2 ^ 64) :
    resolve w false a = .ok (.memLoc a) :=
  if_neg (Nat.not_lt.2 hfits)

section RunResolved

variable (s : State) (v : Nat) (p : VP) (f : Family) (w : Width)

/-- Without lock there is no path but the plain one (R119). -/
theorem runResolved_unlocked (isreg : Bool) (loc : Location) :
    s.runResolved v p f w false isreg loc = s.runPlain v p f w false loc := by
  cases loc <;> rfl

/-- With lock a register operand violates, before any path is chosen (R118). -/
theorem runResolved_locked_reg (loc : Location) :
    s.runResolved v p f w true true loc = s.raiseViolation v p .IV_LOCK_REG := rfl

/-- With lock a memory operand passes the alignment gate, then the host's capability decides (R119, R120, R125). -/
theorem runResolved_locked_mem (a : Addr) :
    s.runResolved v p f w true false (.memLoc a) =
      if a.toNat % w.bytes ≠ 0 then s.runPlain v p f w true (.memLoc a)
      else if s.host.hasCas w = true then s.runAtomic v p f w true a
      else s.raiseIllegal v p .UD_NO_ATOMIC := by
  by_cases haligned : a.toNat % w.bytes = 0
  · cases hcas : s.host.hasCas w <;> simp [State.runResolved, choosePath, aligned, haligned, hcas]
  · simp [State.runResolved, choosePath, aligned, haligned]

end RunResolved

/-- A host whose capability for the width is off has no compare-and-swap there; at 16 bits none has (R111, R115). -/
theorem HostCaps.hasCas_eq_false {h : HostCaps} {w : Width} (h8 : w = .w8 → h.cas8 = false)
    (h32 : w = .w32 → h.cas32 = false) (h64 : w = .w64 → h.cas64 = false) : h.hasCas w = false := by
  cases w with
  | w8 => exact h8 rfl
  | w16 => rfl
  | w32 => exact h32 rfl
  | w64 => exact h64 rfl

/-- Settles O29: the aligned operand passes the alignment gate, and the host's capability then leaves only the trap. -/
theorem incapableHostTraps : Obligations.IncapableHostTraps := by
  intro i s p a hwidth hlock hisreg ready hmem hfits haligned h8 h32 h64
  have hpayload : s.port.payload = ⟨true, a⟩ := hmem
  have hloc : resolve i.width false s.port.payload.locRef = .ok (.memLoc a) := by
    rw [hpayload, resolve_mem hfits]
  have hcas : ¬ s.host.hasCas i.width = true := by simp [HostCaps.hasCas_eq_false h8 h32 h64]
  rw [exec_eq_execute, hlock, hisreg,
    execute_of_resolve ready i.family (fun h => hwidth h.1) (by rw [hpayload]) hloc, runResolved_locked_mem,
    if_neg (not_not.2 haligned), if_neg hcas, raiseIllegal_eq_illegalTaken]

/-- Settles O36: the ways of a resolved command, and at 16 bits with lock the violation that comes before. -/
theorem pathSelection : Obligations.PathSelection := by
  intro s v p f w
  refine ⟨fun r off => ⟨runResolved_unlocked .., ?_⟩, fun a => ⟨runResolved_unlocked .., fun _ => ?_⟩, ?_⟩
  · rw [runResolved_locked_reg, raiseViolation_eq_violationTaken]
  · rw [runResolved_locked_mem, raiseIllegal_eq_illegalTaken]
  · rintro rfl isreg ready
    rw [execute_lock_w16 ready, raiseViolation_eq_violationTaken]

end Sys2Proof.Machine
end

section
/-! `not_W` (R150): the bitwise complement and the subtraction `2^W - 1 - v` give one value. -/

namespace Sys2Proof.Machine

open Sys2Proof.Claims

/-- The two forms of the result that R150 writes, `~v` and `2^W - 1 - v`. -/
theorem not_eq_ofNat_sub {W : Nat} (v : BitVec W) : ~~~v = BitVec.ofNat W (2 ^ W - 1 - v.toNat) := by
  rw [← BitVec.toNat_not, BitVec.ofNat_toNat, BitVec.setWidth_eq]

theorem notOp_eq_notSpec {W : Nat} (v y : BitVec W) (fin : Flags) : notOp v y fin = notSpec W v fin :=
  Prod.ext (not_eq_ofNat_sub v) rfl

/-- Settles O6: the table's entry is `notOp` at every width, and its complement is the rule's subtraction. -/
theorem notOperation : Obligations.NotOperation :=
  fun _ v y fin => notOp_eq_notSpec v y fin

end Sys2Proof.Machine
end

section
/-! The flag functions of the ALU port (R27, R130) as arithmetic on the operand and the result, and `neg_W` (R160) by
them. -/

namespace Sys2Proof.Machine

open Sys2Proof.Claims

/-! The flags as arithmetic, for every operation that writes them -/

/-- A test of two words for equality, as the rules write it: by their values. -/
theorem beq_eq_decide_toNat {W : Nat} (x y : BitVec W) : (x == y) = decide (x.toNat = y.toNat) :=
  decide_eq_decide.2 BitVec.toNat_inj.symm

theorem bne_zero_eq_decide_toNat {W : Nat} (x : BitVec W) : (x != 0) = decide (x.toNat ≠ 0) := by
  rw [bne, beq_eq_decide_toNat, decide_not]
  rfl

theorem zeroFlag_eq_decide {W : Nat} (r : BitVec W) : zeroFlag r = decide (r.toNat = 0) :=
  beq_eq_decide_toNat r 0

/-- Counting the ones of the low eight bits and adding the bits up have one parity (R26, R130). -/
theorem parityFlag_eq_evenOnes {W : Nat} (r : BitVec W) : parityFlag r = evenOnes r := by
  have hrange : List.range 8 = [0, 1, 2, 3, 4, 5, 6, 7] := rfl
  refine congrArg (fun ones => decide (ones % 2 = 0)) ?_
  simp only [hrange, List.countP_cons, List.countP_nil, Bool.toNat, Bool.cond_eq_ite]
  ac_rfl

theorem toNat_lowNibble {W : Nat} (v : BitVec W) : (lowNibble v).toNat = v.toNat % 16 := by
  simp [lowNibble]

/-! Negation -/

/-- The result of R160 as the subtraction that it writes, `(2^W - v) mod 2^W`. -/
theorem neg_eq_ofNat_sub {W : Nat} (v : BitVec W) : -v = BitVec.ofNat W ((2 ^ W - v.toNat) % 2 ^ W) := by
  rw [← BitVec.toNat_neg, BitVec.ofNat_toNat, BitVec.setWidth_eq]

theorem negOp_eq_negSpec {W : Nat} (v y : BitVec W) (fin : Flags) : negOp v y fin = negSpec W v fin := by
  have hAF : (lowNibble v != 0) = decide (v.toNat % 16 ≠ 0) := by rw [bne_zero_eq_decide_toNat, toNat_lowNibble]
  rw [negOp, negSpec, neg_eq_ofNat_sub, bne_zero_eq_decide_toNat, hAF, parityFlag_eq_evenOnes, zeroFlag_eq_decide]
  rfl

/-- The negation of a word is zero exactly when the word is. -/
theorem negOp_ZF {W : Nat} (v y : BitVec W) (fin : Flags) : (negOp v y fin).2.ZF = decide (v = 0) :=
  decide_eq_decide.2 BitVec.neg_eq_zero_iff

theorem negOp_CF {W : Nat} (v y : BitVec W) (fin : Flags) : (negOp v y fin).2.CF = !(negOp v y fin).2.ZF := by
  rw [negOp_ZF]
  rfl

/-- Settles O7: the table's entry is `negOp` at every width, and `-v` is zero exactly when `v` is. -/
theorem negOperation : Obligations.NegOperation :=
  fun _ v y fin => ⟨negOp_eq_negSpec v y fin, negOp_ZF v y fin, negOp_CF v y fin⟩

end Sys2Proof.Machine
end

section
/-! `inc_W` (R170), by the flag functions as arithmetic. -/

namespace Sys2Proof.Machine

open Sys2Proof.Claims

/-- The result of R170 as the truncated sum that it writes, `(v + 1) mod 2^W`. -/
theorem add_one_eq_ofNat {W : Nat} (v : BitVec W) : v + 1 = BitVec.ofNat W ((v.toNat + 1) % 2 ^ W) :=
  BitVec.eq_of_toNat_eq (by simp [BitVec.toNat_add])

/-- The auxiliary carry of R170: adding one leaves the low four bits exactly when they are all ones. -/
theorem lowNibble_beq_fifteen {W : Nat} (v : BitVec W) : (lowNibble v == 0xF) = decide (v.toNat % 16 = 15) := by
  rw [beq_eq_decide_toNat, toNat_lowNibble]
  rfl

theorem incOp_eq_incSpec {W : Nat} (v y : BitVec W) (fin : Flags) : incOp v y fin = incSpec W v fin := by
  rw [incOp, incSpec, add_one_eq_ofNat, parityFlag_eq_evenOnes, lowNibble_beq_fifteen, zeroFlag_eq_decide]
  rfl

/-- Settles O8: the table's entry is `incOp` at every width, and each of its parts is the rule's arithmetic. -/
theorem incOperation : Obligations.IncOperation :=
  fun _ v y fin => incOp_eq_incSpec v y fin

end Sys2Proof.Machine
end

section
/-! `dec_W` (R180), by the flag functions as arithmetic. -/

namespace Sys2Proof.Machine

open Sys2Proof.Claims

/-- The result of R180 as the truncated difference that it writes, `(v + 2^W - 1) mod 2^W`: adding one gives back `v`. -/
theorem sub_one_eq_ofNat {W : Nat} (v : BitVec W) : v - 1 = BitVec.ofNat W ((v.toNat + 2 ^ W - 1) % 2 ^ W) := by
  have hpos : 1 ≤ v.toNat + 2 ^ W := Nat.le_add_left_of_le Nat.one_le_two_pow
  refine sub_eq_iff_eq_add.2 (BitVec.eq_of_toNat_eq ?_)
  simp [BitVec.toNat_add, Nat.sub_add_cancel hpos, Nat.mod_eq_of_lt v.isLt]

/-- The auxiliary carry of R180: subtracting one borrows from above the low four bits exactly when they are all zero. -/
theorem lowNibble_beq_zero {W : Nat} (v : BitVec W) : (lowNibble v == 0x0) = decide (v.toNat % 16 = 0) := by
  rw [beq_eq_decide_toNat, toNat_lowNibble]
  rfl

theorem decOp_eq_decSpec {W : Nat} (v y : BitVec W) (fin : Flags) : decOp v y fin = decSpec W v fin := by
  rw [decOp, decSpec, sub_one_eq_ofNat, parityFlag_eq_evenOnes, lowNibble_beq_zero, zeroFlag_eq_decide]
  rfl

/-- Settles O9: the table's entry is `decOp` at every width, and each of its parts is the rule's arithmetic. -/
theorem decOperation : Obligations.DecOperation :=
  fun _ v y fin => decOp_eq_decSpec v y fin

end Sys2Proof.Machine
end

section
/-! A fault is settled by the command, the port and the host alone (R128, R206): registers, flags and memory do not
enter. The paths that do look at them, whole or step by step, leave the fault record as it was. -/

namespace Sys2Proof.Machine

open Sys2Proof.Claims

/-! The two exceptions as one -/

/-- What a fault record is written for: one of the two exceptions, with its code (R202, R204). -/
inductive FaultCause where
  | illegal (code : IllegalCode)
  | violation (code : ViolationCode)

/-- The record that the exception leaves (R42). -/
def FaultCause.record : FaultCause → FaultRec
  | .illegal code => .illegal code
  | .violation code => .violation code

/-- Raising the exception (R201, R203). -/
def State.takeFault (s : State) (v : Nat) (p : VP) : FaultCause → State
  | .illegal code => s.raiseIllegal v p code
  | .violation code => s.raiseViolation v p code

theorem takeFault_eq_taken (s : State) (v : Nat) (p : VP) (c : FaultCause) :
    (∃ code, s.takeFault v p c = illegalTaken s v p code) ∨
      (∃ code, s.takeFault v p c = violationTaken s v p code) := by
  cases c with
  | illegal code => exact .inl ⟨code, raiseIllegal_eq_illegalTaken s v p code⟩
  | violation code => exact .inr ⟨code, raiseViolation_eq_violationTaken s v p code⟩

/-- The virtual processor that took the fault has its record. -/
theorem takeFault_record {s : State} {v : Nat} {p₀ : VP} (hp : s.vps[v]? = some p₀) (p : VP) (c : FaultCause) :
    ∃ q, (s.takeFault v p c).vps[v]? = some q ∧ q.fault = c.record := by
  have hv : v < s.vps.length := (List.getElem?_eq_some_iff.1 hp).1
  cases c with
  | illegal code => exact ⟨_, List.getElem?_set_self hv, rfl⟩
  | violation code => exact ⟨_, List.getElem?_set_self hv, rfl⟩

/-! The commit paths leave the fault record as it was -/

/-- The record of virtual processor `v` in `t`, if there is one, has the fault record `r`. -/
def State.HasFault (t : State) (v : Nat) (r : FaultRec) : Prop := ∀ q, t.vps[v]? = some q → q.fault = r

theorem hasFault_of_vps_eq_set {t : State} {l : List VP} {v : Nat} {p : VP} {r : FaultRec} (h : t.vps = l.set v p)
    (hfault : p.fault = r) : t.HasFault v r := by
  intro q hq
  rw [h] at hq
  have hv : v < l.length := by simpa using (List.getElem?_eq_some_iff.1 hq).1
  rw [List.getElem?_set_self hv] at hq
  exact Option.some.inj hq ▸ hfault

theorem directRmw_fault (f : Family) (w : Width) (loc : Location) (p : VP) (m : Memory) :
    (directRmw f w loc p m).1.fault = p.fault := by
  cases loc with
  | regLoc r off =>
    obtain ⟨x, hx⟩ := directRmw_reg_vp f w r off p m
    rw [hx, VP.setReg_fault]
  | memLoc addr => rw [directRmw_mem]

section Paths

variable (s : State) (v : Nat) (p : VP) (f : Family) (w : Width) (lock : Bool)

theorem microStep_keeps_fault (fl : InFlight) : (s.microStep v p fl).HasFault v p.fault := by
  obtain ⟨q, hvps, -, -, hfault, -⟩ := microStep_frame s v p fl
  exact hasFault_of_vps_eq_set hvps hfault

theorem runPlain_keeps_fault (loc : Location) : (s.runPlain v p f w lock loc).HasFault v p.fault := by
  have whole : (s.commit v (directRmw f w loc p s.mem).1 (directRmw f w loc p s.mem).2).HasFault v p.fault :=
    hasFault_of_vps_eq_set (State.commit_vps ..) (directRmw_fault f w loc p s.mem)
  cases loc with
  | regLoc r off => exact whole
  | memLoc addr =>
    rw [State.runPlain]
    split_ifs
    · exact whole
    · exact microStep_keeps_fault s v _ _

theorem runAtomic_keeps_fault (addr : Addr) : (s.runAtomic v p f w lock addr).HasFault v p.fault := by
  rw [State.runAtomic, casIteration_eq]
  split_ifs
  · exact hasFault_of_vps_eq_set (State.commit_vps ..) rfl
  · exact microStep_keeps_fault s v _ _

end Paths

/-! The faults of a command -/

/-- With this port on this host the command takes this fault in every state whose virtual processor is ready, whatever
its registers, its flags and memory hold (R206). -/
def FaultsWith (i : Instr) (port : Port) (host : HostCaps) (c : FaultCause) : Prop :=
  ∀ s p, Ready s p → s.port = port → s.host = host → exec i s = .next (s.takeFault s.port.vp p c)

/-- A failed resolver traps before an operand is looked at (R115, R117). -/
theorem execute_of_not_resOk {s : State} {p : VP} (ready : Ready s p) {w : Width} {lock : Bool} (f : Family)
    (isreg : Bool) (hlock : ¬(w = .w16 ∧ lock = true)) (hfail : s.port.payload.resOk = false) :
    execute f w lock isreg s = .next (s.raiseIllegal s.port.vp p .UD_RESOLVE) := by
  obtain ⟨hvp, habort, hfault, hseq⟩ := ready
  simp [execute, hvp, habort, hfault, hseq, hlock, hfail]

/-- The incapable host's trap needs path selection only, which looks at the operand's address and the host (R125). -/
theorem runResolved_noAtomic {lock isreg : Bool} {w : Width} {loc : Location} {s : State}
    (hlegal : ¬(lock = true ∧ isreg = true)) (hpath : choosePath lock w loc s.host = .noAtomic) (v : Nat) (p : VP)
    (f : Family) : s.runResolved v p f w lock isreg loc = s.raiseIllegal v p .UD_NO_ATOMIC := by
  simp [State.runResolved, hlegal, hpath]

/-- A resolved command leaves the fault record as it was, or takes a fault that its location and the host settle. -/
theorem runResolved_keeps_or_faults (s : State) (v : Nat) (p : VP) (f : Family) (w : Width) (lock isreg : Bool)
    (loc : Location) :
    (s.runResolved v p f w lock isreg loc).HasFault v p.fault ∨
      ∃ c, ∀ (s' : State) (v' : Nat) (p' : VP), s'.host = s.host →
        s'.runResolved v' p' f w lock isreg loc = s'.takeFault v' p' c := by
  rcases runResolved_cases s v p f w lock isreg loc with
    ⟨rfl, rfl, -⟩ | ⟨hlegal, ⟨hpath, -⟩ | ⟨addr, -, -, hrun⟩ | ⟨-, hrun⟩⟩
  · exact .inr ⟨.violation .IV_LOCK_REG, fun s' v' p' _ => runResolved_locked_reg s' v' p' f w loc⟩
  · exact .inr ⟨.illegal .UD_NO_ATOMIC, fun s' v' p' hhost => runResolved_noAtomic hlegal (hhost ▸ hpath) v' p' f⟩
  · exact .inl (hrun ▸ runAtomic_keeps_fault s v p f w lock addr)
  · exact .inl (hrun ▸ runPlain_keeps_fault s v p f w lock loc)

/-- A command that answers a next state was handed to a ready virtual processor, and leaves its fault record as it was or
takes the fault that its port and host settle. -/
theorem exec_keeps_or_faults {i : Instr} {s t : State} (h : exec i s = .next t) :
    ∃ p, Ready s p ∧ (t.HasFault s.port.vp p.fault ∨ ∃ c, FaultsWith i s.port s.host c) := by
  rw [exec_eq_execute] at h
  obtain ⟨p, hp, habort, hfault, hseq, hcases⟩ := execute_cases h
  refine ⟨p, ⟨hp, habort, hfault, hseq⟩, ?_⟩
  rcases hcases with ⟨hwidth, hlock, -⟩ | ⟨hlock, hfail, -⟩ | ⟨hlock, hok, loc, hloc, rfl⟩
  · refine .inr ⟨.violation .IV_LOCK_16, fun s' p' ready _ _ => ?_⟩
    rw [exec_eq_execute, hwidth, hlock]
    exact execute_lock_w16 ready ..
  · refine .inr ⟨.illegal .UD_RESOLVE, fun s' p' ready hport _ => ?_⟩
    rw [exec_eq_execute]
    exact execute_of_not_resOk ready _ _ hlock (hport ▸ hfail)
  · refine (runResolved_keeps_or_faults ..).imp_right ?_
    rintro ⟨c, hc⟩
    refine ⟨c, fun s' p' ready hport hhost => ?_⟩
    rw [exec_eq_execute, execute_of_resolve ready _ hlock (hport ▸ hok) (hport ▸ hloc), hc _ _ _ hhost]

/-- A command that ends with a fault record written was handed to a ready virtual processor, and took the fault that its
port and host settle. -/
theorem exec_faultsWith {i : Instr} {s t : State} {p q : VP} (h : exec i s = .next t)
    (hp : s.vps[s.port.vp]? = some p) (hq : t.vps[s.port.vp]? = some q) (hfault : q.fault ≠ .none) :
    Ready s p ∧ ∃ c, FaultsWith i s.port s.host c := by
  obtain ⟨p', ready, hcases⟩ := exec_keeps_or_faults h
  have ⟨hp', _, hnone, _⟩ := ready
  cases Option.some.inj (hp'.symm.trans hp)
  exact ⟨ready, hcases.resolve_left fun hkeeps => hfault ((hkeeps q hq).trans hnone)⟩

/-- Readiness looks at no register, no flag and no memory. -/
theorem ready_with_contents {s : State} {p : VP} (ready : Ready s p) (regs : Vector Reg64 16) (flags : Flags)
    (m : Memory) :
    Ready { s with mem := m, vps := s.vps.set s.port.vp { p with regs := regs, flags := flags } }
      { p with regs := regs, flags := flags } := by
  obtain ⟨hp, habort, hfault, hseq⟩ := ready
  exact ⟨List.getElem?_set_self (List.getElem?_eq_some_iff.1 hp).1, habort, hfault, hseq⟩

/-- A step with a command in flight is that command's next step (R244). -/
theorem stepVp_inflight {s : State} {v : Nat} {p : VP} {f : InFlight} (hp : s.vps[v]? = some p)
    (hf : p.inflight = some f) : stepVp v s = .next (s.microStep v p f) := by
  simp [stepVp, hp, hf]

/-- Settles O30: the fault that a command takes is settled by its port and host, so it is the same with other registers,
flags and memory, and the state before it is all that is kept; no step of a command in flight writes a fault record. -/
theorem faultReadsAndChangesNothing : Obligations.FaultReadsAndChangesNothing := by
  refine ⟨fun i s t p q hexec hp hq hfault => ?_, fun s t v p q f hp hf hstep hq => ?_⟩
  · obtain ⟨ready, c, hfaults⟩ := exec_faultsWith hexec hp hq hfault
    obtain rfl : t = s.takeFault s.port.vp p c :=
      Host.Outcome.next.inj (hexec.symm.trans (hfaults s p ready rfl rfl))
    obtain ⟨q₁, hq₁, hrecord⟩ := takeFault_record hp p c
    cases Option.some.inj (hq₁.symm.trans hq)
    refine ⟨takeFault_eq_taken .., fun regs flags m => ?_⟩
    have ready' := ready_with_contents ready regs flags m
    have ⟨hvp', _⟩ := ready'
    obtain ⟨q', hq', hrecord'⟩ := takeFault_record hvp' { p with regs := regs, flags := flags } c
    exact ⟨_, q', hfaults _ _ ready' rfl rfl, hq', hrecord'.trans hrecord.symm⟩
  · obtain rfl : s.microStep v p f = t := Host.Outcome.next.inj ((stepVp_inflight hp hf).symm.trans hstep)
    exact microStep_keeps_fault s v p f q hq

end Sys2Proof.Machine
end

section
/-! The encoder against the opcode table (R87, R91), and the reserved encodings (R89) by the fields of the word. -/

namespace Sys2Proof

open Sys2Proof.Machine Sys2Proof.Claims

/-! Encoding -/

/-- The encoded word of every instruction lies in its row of the opcode table. -/
theorem encode_tableRow : ∀ i : Instr, Laws.TableRow.Statement i
  | .not8 l m => Laws.TableRow.not8 l m
  | .not16 l m => Laws.TableRow.not16 l m
  | .not32 l m => Laws.TableRow.not32 l m
  | .not64 l m => Laws.TableRow.not64 l m
  | .neg8 l m => Laws.TableRow.neg8 l m
  | .neg16 l m => Laws.TableRow.neg16 l m
  | .neg32 l m => Laws.TableRow.neg32 l m
  | .neg64 l m => Laws.TableRow.neg64 l m
  | .inc8 l m => Laws.TableRow.inc8 l m
  | .inc16 l m => Laws.TableRow.inc16 l m
  | .inc32 l m => Laws.TableRow.inc32 l m
  | .inc64 l m => Laws.TableRow.inc64 l m
  | .dec8 l m => Laws.TableRow.dec8 l m
  | .dec16 l m => Laws.TableRow.dec16 l m
  | .dec32 l m => Laws.TableRow.dec32 l m
  | .dec64 l m => Laws.TableRow.dec64 l m
  | .incdec8Inc l m => Laws.TableRow.incdec8Inc l m
  | .incdec8Dec l m => Laws.TableRow.incdec8Dec l m

/-- Settles O1: the encoded word matches its row and carries its operand bits, and such a word decodes to the row's
instruction. -/
theorem decodeOfEncodeIsTheInstruction : Obligations.DecodeOfEncodeIsTheInstruction := by
  intro i
  obtain ⟨hrow, hlock, hisreg, -⟩ := encode_tableRow i
  exact (decodeIsTheOpcodeTable (encode i) i).2 ⟨hrow, hlock.symm, hisreg.symm⟩

/-! The fields of a word by division -/

section Fields

variable (w : CmdWord)

theorem cmdFields_zero_eq_zero_iff : (cmdFields w).zero = 0 ↔ w.toNat / 2048 = 0 := by
  have hlt := w.isLt
  rw [← BitVec.toNat_inj, cmdFields, BitVec.extractLsb'_toNat, Nat.shiftRight_eq_div_pow]
  simp only [BitVec.ofNat_eq_ofNat, BitVec.toNat_ofNat]
  omega

theorem cmdFields_entry_toNat : (cmdFields w).entry.toNat = w.toNat / 256 % 8 := by
  rw [cmdFields, BitVec.extractLsb'_toNat, Nat.shiftRight_eq_div_pow]

theorem cmdFields_entry_eq_four_iff : (cmdFields w).entry = 4 ↔ w.toNat / 256 % 8 = 4 := by
  rw [← cmdFields_entry_toNat, ← BitVec.toNat_inj]
  rfl

theorem cmdFields_wide_iff : (cmdFields w).wide = true ↔ w.toNat / 128 % 2 = 1 := by
  simp [cmdFields, BitVec.getLsbD, Nat.testBit_eq_decide_div_mod_eq]

theorem cmdFields_reg_toNat : (cmdFields w).reg.toNat = w.toNat % 8 := by
  rw [cmdFields, BitVec.extractLsb'_toNat, Nat.shiftRight_zero]

theorem cmdFields_reg_eq_zero_iff : (cmdFields w).reg = 0 ↔ w.toNat % 8 = 0 := by
  rw [← cmdFields_reg_toNat, ← BitVec.toNat_inj]
  rfl

theorem cmdFields_reg_eq_one_iff : (cmdFields w).reg = 1 ↔ w.toNat % 8 = 1 := by
  rw [← cmdFields_reg_toNat, ← BitVec.toNat_inj]
  rfl

end Fields

/-- A word whose `zero` is 0 and whose `entry` is below 4 is in no row of the table of R89: it decodes to an
instruction. -/
theorem decode_of_direct_entry {w : CmdWord} (hzero : w.toNat / 2048 = 0) (hentry : w.toNat / 256 % 8 < 4) :
    ∃ i, decode w = .ok i := by
  have hz := (cmdFields_zero_eq_zero_iff w).2 hzero
  rw [← cmdFields_entry_toNat] at hentry
  obtain h4 | ⟨fam, hfam⟩ := entry_cases (show ¬ 5 ≤ (cmdFields w).entry.toNat by omega)
  · rw [h4] at hentry
    exact absurd hentry (by decide)
  · exact ⟨_, decodeFields_of_family_entry hz hfam⟩

/-- The decoder on the multiplexed entry (R190), by the bits of the word. -/
theorem decode_of_mux_entry {w : CmdWord} (hzero : w.toNat / 2048 = 0) (hentry : w.toNat / 256 % 8 = 4) :
    decode w =
      if w.toNat / 128 % 2 = 1 then .error .UD_RESERVED
      else if w.toNat % 8 = 0 then .ok (.incdec8Inc (w.getLsbD 4) (w.getLsbD 3))
      else if w.toNat % 8 = 1 then .ok (.incdec8Dec (w.getLsbD 4) (w.getLsbD 3))
      else .error .UD_SUBOPCODE := by
  have hlow : ¬((cmdFields w).zero ≠ 0 ∨ 5 ≤ (cmdFields w).entry.toNat) := by
    rw [ne_eq, cmdFields_zero_eq_zero_iff, cmdFields_entry_toNat]
    omega
  rw [decode, decodeFields, if_neg hlow, if_pos ((cmdFields_entry_eq_four_iff w).2 hentry)]
  simp only [cmdFields_wide_iff, cmdFields_reg_eq_zero_iff, cmdFields_reg_eq_one_iff]
  rfl

/-- A word in the first row of the table of R89 is reserved. -/
theorem decode_of_reserved_entry {w : CmdWord} (h : w.toNat / 2048 ≠ 0 ∨ 5 ≤ w.toNat / 256 % 8) :
    decode w = .error .UD_RESERVED := by
  rw [ne_eq, ← cmdFields_zero_eq_zero_iff, ← cmdFields_entry_toNat] at h
  exact if_pos h

/-- The table of R89 and the decoder agree: a word in the table gets its code, every other an instruction. -/
theorem reservedCode_cases (w : CmdWord) :
    (∃ c, reservedCode w = some c ∧ decode w = .error c) ∨ (reservedCode w = none ∧ ∃ i, decode w = .ok i) := by
  unfold reservedCode
  split_ifs with hfirst hmux hwide hreg
  · exact .inl ⟨_, rfl, decode_of_reserved_entry hfirst⟩
  all_goals obtain ⟨hzero, hentry⟩ : w.toNat / 2048 = 0 ∧ w.toNat / 256 % 8 < 5 := by omega
  · exact .inl ⟨_, rfl, by rw [decode_of_mux_entry hzero hmux, if_pos hwide]⟩
  · exact .inl ⟨_, rfl, by
      rw [decode_of_mux_entry hzero hmux, if_neg hwide, if_neg (by omega), if_neg (by omega)]⟩
  · refine .inr ⟨rfl, ?_⟩
    rw [decode_of_mux_entry hzero hmux, if_neg hwide]
    by_cases h0 : w.toNat % 8 = 0
    · exact ⟨_, if_pos h0⟩
    · exact ⟨_, by rw [if_neg h0, if_pos (by omega)]⟩
  · exact .inr ⟨rfl, decode_of_direct_entry hzero (by omega)⟩

/-- Settles O3: in either case of `reservedCode_cases` both sides of each equivalence are known. -/
theorem reservedEncodingsDecodeToTheirCode : Obligations.ReservedEncodingsDecodeToTheirCode := by
  intro w
  obtain ⟨c, hcode, hdecode⟩ | ⟨hcode, i, hdecode⟩ := reservedCode_cases w
  · simp [hcode, hdecode]
  · simp [hcode, hdecode]

/-- Settles O4: the decoder on the multiplexed entry, whose arms of `exec` call `execute` as those of INC8 and DEC8. -/
theorem multiplexedEntryIsTheByteCommand : Obligations.MultiplexedEntryIsTheByteCommand := by
  refine ⟨fun w hentry => ?_, fun lock isreg s => ⟨rfl, rfl⟩⟩
  have hdecode := decode_of_mux_entry (w := w) (by omega) (by omega)
  refine ⟨fun hwide => ?_, fun hwide hreg => ?_, fun hwide hreg => ?_, fun hwide hreg => ?_⟩
  · rw [hdecode, if_pos hwide]
  · rw [hdecode, if_neg (by omega), if_pos hreg]
  · rw [hdecode, if_neg (by omega), if_neg (by omega), if_pos hreg]
  · rw [hdecode, if_neg (by omega), if_neg (by omega), if_neg (by omega)]

/-- Settles O5: ten runs of the decoder. -/
theorem sampleWordsDecode : Obligations.SampleWordsDecode :=
  ⟨by decide, by decide, by decide, by decide, by decide, by decide, by decide, by decide, by decide, by decide⟩

end Sys2Proof
end

section
/-! The values of the four operations (R134), the bits of a register location (R31), little-endian memory (R53) and the
compare-and-swap (R57). -/

namespace Sys2Proof.Machine

open Sys2Proof.Claims

/-! The operations as values -/

section Ops

variable (w : Width) (v y : BitVec w.bits) (fin : Flags)

@[simp] theorem ops_NOT_fst : (ops .NOT w v y fin).1 = ~~~v := rfl
@[simp] theorem ops_NEG_fst : (ops .NEG w v y fin).1 = -v := rfl
@[simp] theorem ops_INC_fst : (ops .INC w v y fin).1 = v + 1 := rfl
@[simp] theorem ops_DEC_fst : (ops .DEC w v y fin).1 = v - 1 := rfl

end Ops

/-- The corner values of R134, at any width above 0: the wrap at the top and at the bottom, and the two values that
negation keeps. -/
theorem corner_values {W : Nat} (hW : 0 < W) (v : BitVec W) :
    (v.toNat = 2 ^ W - 1 → (v + 1).toNat = 0) ∧ (v.toNat = 0 → (v - 1).toNat = 2 ^ W - 1) ∧
    (v.toNat = 0 → (-v).toNat = 0) ∧ (v.toNat = 2 ^ (W - 1) → (-v).toNat = 2 ^ (W - 1)) ∧
    (v.toNat = 0 → (~~~v).toNat = 2 ^ W - 1) ∧ (v.toNat = 2 ^ W - 1 → (~~~v).toNat = 0) := by
  have hone : 1 < 2 ^ W := Nat.one_lt_two_pow hW.ne'
  have hhalf : 2 ^ W = 2 * 2 ^ (W - 1) := (mul_pow_sub_one hW.ne' 2).symm
  refine ⟨fun h => ?_, fun h => ?_, fun h => ?_, fun h => ?_, fun h => ?_, fun h => ?_⟩
  · simp [BitVec.toNat_add, h, Nat.mod_eq_of_lt hone, Nat.sub_add_cancel hone.le]
  · simp [BitVec.toNat_sub, h, Nat.mod_eq_of_lt hone]
  · simp [BitVec.toNat_neg, h]
  · rw [BitVec.toNat_neg, h, hhalf, Nat.mod_eq_of_lt (by omega)]
    omega
  · rw [BitVec.toNat_not, h, Nat.sub_zero]
  · rw [BitVec.toNat_not, h, Nat.sub_self]

theorem bits_pos (w : Width) : 0 < w.bits := by cases w <;> decide

/-- Settles O11: the identities are those of two's complement words, the corner values are arithmetic modulo `2^W`. -/
theorem operationIdentities : Obligations.OperationIdentities := by
  intro w v a b
  refine ⟨?_, ?_, BitVec.not_not, BitVec.neg_neg, BitVec.add_sub_cancel v 1, corner_values (bits_pos w) v⟩
  · simp only [ops_NOT_fst, ops_NEG_fst, ops_INC_fst]
    exact BitVec.neg_eq_not_add v
  · simp only [ops_NOT_fst, ops_NEG_fst, ops_DEC_fst]
    rw [BitVec.neg_eq_not_add]
    exact (BitVec.add_sub_cancel _ _).symm

/-! Register locations -/

theorem getLsbD_regSlice (x : Reg64) (off n : Nat) {k : Nat} (hk : k < 8 * n) :
    (regSlice x off n).getLsbD k = x.getLsbD (8 * off + k) := by
  simp [regSlice, hk]

theorem getLsbD_regInsert (x : Reg64) {off n : Nat} (v : BitVec (8 * n)) {k : Nat} (hk : k < 64) :
    (regInsert x off n v).getLsbD k =
      if 8 * off ≤ k ∧ k < 8 * (off + n) then v.getLsbD (k - 8 * off) else x.getLsbD k := by
  simp only [regInsert, BitVec.getLsbD_or, BitVec.getLsbD_and, BitVec.getLsbD_not, BitVec.getLsbD_shiftLeft,
    BitVec.getLsbD_setWidth, BitVec.getLsbD_allOnes]
  split_ifs with hin
  · simp [hk, show ¬ k < 8 * off by omega, show k - 8 * off < 64 by omega, show k - 8 * off < 8 * n by omega]
  · by_cases hlow : k < 8 * off
    · simp [hk, hlow]
    · have hhigh : 8 * n ≤ k - 8 * off := by omega
      simp [hk, BitVec.getLsbD_of_ge v _ hhigh, Nat.not_lt.2 hhigh]

/-- Settles O13: the bits of the slice and of the insertion. -/
theorem registerLocationBits : Obligations.RegisterLocationBits :=
  fun x off n v _ => ⟨fun _ hk => getLsbD_regSlice x off n hk, fun _ hk => getLsbD_regInsert x v hk⟩

/-! Memory -/

/-- A read of the first `k` of `n` bytes written sees the low part of the value (R53). -/
theorem memRead_memWrite_low {m : Memory} (hm : m.wf = true) {a : Addr} {n k : Nat} (v : BitVec (8 * n))
    (h : a.toNat + n ≤ 2 ^ 64) (hk : k ≤ n) : memRead (memWrite m a v n) a k = v.extractLsb' 0 (8 * k) := by
  have hbytes : ∀ j < k, (memWrite m a v n).read (byteAddr a j) = byteOf v j :=
    fun j hj => read_memWrite_inside hm v h (by omega)
  rw [memRead, littleEndianSum_of_bytes hbytes]
  exact BitVec.eq_of_toNat_eq (by simp)

/-- A write of `n` bytes leaves the bytes outside the operand alone (R73). -/
theorem memWrite_bytesOutsideKept {W : Nat} {m : Memory} (hm : m.wf = true) {a : Addr} {n : Nat} (v : BitVec W)
    (h : a.toNat + n ≤ 2 ^ 64) : BytesOutsideKept a n m (memWrite m a v n) := by
  intro x hx
  refine read_memWrite_outside hm v fun k hk => ?_
  rw [byteAddr_eq h hk]
  omega

/-- Settles O14: the laws of guest memory, with byte `j` of the operand at `a + j`. -/
theorem memoryIsLittleEndian : Obligations.MemoryIsLittleEndian := by
  intro m a n k v hm h
  refine ⟨memWrite_wf hm a v n, fun j hj => ?_, memWrite_bytesOutsideKept hm v h, memRead_memWrite_low hm v h⟩
  rw [← byteAddr_eq h hj, read_memWrite_inside hm v h hj, byteOf]

/-- Settles O15: the two outcomes of `memCas_cases`. -/
theorem compareAndSwap : Obligations.CompareAndSwap := by
  intro m a n expected desired
  obtain ⟨heq, hcas⟩ | ⟨hne, hcas⟩ := memCas_cases m a n expected desired
  · exact ⟨fun _ => hcas, fun hne => absurd heq hne⟩
  · exact ⟨fun heq => absurd heq hne, fun _ => hcas⟩

end Sys2Proof.Machine
end

section
/-! Register and memory commands as a whole (R121, R122, R126, R133), and the commands that stop before the operand is
used (R84, R117, R118, R208). -/

namespace Sys2Proof.Machine

open Sys2Proof.Claims

/-- The operation table (R116) is the four rules R150, R160, R170 and R180. -/
theorem ops_eq_specOf (f : Family) (w : Width) (v y : BitVec w.bits) (fin : Flags) :
    ops f w v y fin = specOf f w.bits v fin := by
  cases f with
  | NOT => exact notOp_eq_notSpec v y fin
  | NEG => exact negOp_eq_negSpec v y fin
  | INC => exact incOp_eq_incSpec v y fin
  | DEC => exact decOp_eq_decSpec v y fin

/-! The resolver's answer for a register operand -/

/-- `resolve` for a register operand, by the fields of `loc_ref` as numbers (R31, R84). -/
theorem resolve_reg (w : Width) (x : BitVec 64) :
    resolve w true x =
      if x.toNat / 128 ≠ 0 ∨ 2 ≤ x.toNat / 16 % 8 ∨ (x.toNat / 16 % 8 = 1 ∧ w ≠ .w8) then
        .error .payloadOutsideContract
      else .ok (.regLoc ⟨x.toNat % 16, Nat.mod_lt _ (by decide)⟩ (x.toNat / 16 % 8)) := by
  have hupper : x.extractLsb' 7 57 = 0 ↔ x.toNat / 128 = 0 := by
    have hlt := x.isLt
    rw [← BitVec.toNat_inj, BitVec.extractLsb'_toNat, Nat.shiftRight_eq_div_pow]
    simp only [BitVec.ofNat_eq_ofNat, BitVec.toNat_ofNat]
    omega
  have hoff : (x.extractLsb' 4 3).toNat = x.toNat / 16 % 8 := by
    rw [BitVec.extractLsb'_toNat, Nat.shiftRight_eq_div_pow]
  have hreg : (x.extractLsb' 0 4).toFin = ⟨x.toNat % 16, Nat.mod_lt _ (by decide)⟩ :=
    Fin.ext (by rw [BitVec.val_toFin, BitVec.extractLsb'_toNat, Nat.shiftRight_zero])
  simp only [resolve, if_true, ne_eq, hupper, hoff, hreg]
  rfl

/-- `resolve` for a memory operand (R51, R84). -/
theorem resolve_memory (w : Width) (x : BitVec 64) :
    resolve w false x =
      if 2 ^ 64 < x.toNat + w.bytes then .error .operandWraps else .ok (.memLoc x) := rfl

section AtReg

variable {s : State} {r : Fin 16} {off : Nat} {w : Width} (hat : AtReg s r off) (hoff : off ≤ 1)
  (hbyte : off = 1 → w = .w8)
include hat hoff hbyte

/-- The resolver's answer `RegLoc(r, off)` within the contract resolves to it. -/
theorem resolve_atReg : resolve w true s.port.payload.locRef = .ok (.regLoc r off) := by
  have hat : s.port.payload = _ := hat
  have hr := r.isLt
  have hx : s.port.payload.locRef.toNat = r.val + 16 * off := by
    rw [hat, BitVec.toNat_ofNat]
    omega
  have hnum : (r.val + 16 * off) / 16 % 8 = off := by omega
  rw [resolve_reg, hx, hnum, if_neg]
  · exact congrArg Except.ok (congrArg (Location.regLoc · off) (Fin.ext (by simp only; omega)))
  · rintro (h | h | ⟨h, hw⟩)
    · omega
    · omega
    · exact hw (hbyte h)

end AtReg

/-! A register command, whole -/

/-- What a register holds after a command of width `w` has left the result `v` in it at byte `off` (R31, R126). -/
def regAfter (w : Width) (x : Reg64) (off : Nat) (v : BitVec w.bits) : Reg64 :=
  if w = .w32 then zeroUpperHalf (regInsert x off w.bytes v) else regInsert x off w.bytes v

/-- The plain path of a register command: the register and the flags. -/
theorem directRmw_reg (f : Family) (w : Width) (r : Fin 16) (off : Nat) (p : VP) (m : Memory) :
    directRmw f w (.regLoc r off) p m =
      (({ p with flags := (ops f w (regSlice (p.reg r) off w.bytes) 0 p.flags).2 } : VP).setReg r
        (regAfter w (p.reg r) off (ops f w (regSlice (p.reg r) off w.bytes) 0 p.flags).1), m) := by
  cases w
  case w32 =>
    refine Prod.ext ?_ rfl
    simp only [directRmw, locRead, locWrite, zeroExtend, VP.reg_setReg_same, VP.setReg_setReg]
    rfl
  all_goals rfl

/-- A register command without lock is its operation on the slice of the register (R119, R133). -/
theorem execute_atReg {s : State} {p : VP} {r : Fin 16} {off : Nat} {w : Width} (ready : Ready s p)
    (hat : AtReg s r off) (hoff : off ≤ 1) (hbyte : off = 1 → w = .w8) (f : Family) :
    execute f w false true s =
      let d := specOf f w.bits (regSlice (p.regs.get r) off w.bytes) p.flags
      regDone s p r (regAfter w (p.regs.get r) off d.1) d.2 := by
  have hok : s.port.payload.resOk = true := by rw [show s.port.payload = _ from hat]
  rw [execute_of_resolve ready f (by simp) hok (resolve_atReg hat hoff hbyte), runResolved_unlocked, State.runPlain,
    directRmw_reg, ops_eq_specOf]
  rfl

/-! The bits of the register after a command, by width -/

theorem regAfter_w8_low (x : Reg64) (v : BitVec 8) : regAfter .w8 x 0 v = x.extractLsb' 8 56 ++ v := by
  refine BitVec.eq_of_getLsbD_eq fun k hk => ?_
  change (regInsert x 0 1 v).getLsbD k = _
  rw [getLsbD_regInsert _ _ hk, BitVec.getLsbD_append]
  by_cases hlow : k < 8
  · rw [if_pos ⟨by omega, by omega⟩, if_pos hlow]
    rfl
  · rw [if_neg (by omega), if_neg hlow, BitVec.getLsbD_extractLsb']
    simp [show k - 8 < 56 by omega, Nat.add_sub_cancel' (Nat.not_lt.1 hlow)]

theorem regAfter_w8_high (x : Reg64) (v : BitVec 8) :
    regAfter .w8 x 1 v = x.extractLsb' 16 48 ++ v ++ x.extractLsb' 0 8 := by
  refine BitVec.eq_of_getLsbD_eq fun k hk => ?_
  change (regInsert x 1 1 v).getLsbD k = _
  rw [getLsbD_regInsert _ _ hk, BitVec.getLsbD_append]
  by_cases hlow : k < 8
  · rw [if_neg (by omega), if_pos hlow, BitVec.getLsbD_extractLsb']
    simp [hlow]
  rw [if_neg hlow, BitVec.getLsbD_append]
  by_cases hmid : k < 16
  · rw [if_pos ⟨by omega, by omega⟩, if_pos (by omega)]
  · rw [if_neg (by omega), if_neg (by omega), BitVec.getLsbD_extractLsb']
    simp [show k - 8 - 8 < 48 by omega, show 16 + (k - 8 - 8) = k by omega]

theorem regAfter_w16 (x : Reg64) (v : BitVec 16) : regAfter .w16 x 0 v = x.extractLsb' 16 48 ++ v := by
  refine BitVec.eq_of_getLsbD_eq fun k hk => ?_
  change (regInsert x 0 2 v).getLsbD k = _
  rw [getLsbD_regInsert _ _ hk, BitVec.getLsbD_append]
  by_cases hlow : k < 16
  · rw [if_pos ⟨by omega, by omega⟩, if_pos hlow]
    rfl
  · rw [if_neg (by omega), if_neg hlow, BitVec.getLsbD_extractLsb']
    simp [show k - 16 < 48 by omega, Nat.add_sub_cancel' (Nat.not_lt.1 hlow)]

/-- The bits that `ZERO_EXTEND` keeps (R126). -/
theorem getLsbD_zeroUpperHalf (x : Reg64) {k : Nat} (hk : k < 64) :
    (zeroUpperHalf x).getLsbD k = (x.getLsbD k && decide (k < 32)) := by
  have hmask : (0x00000000FFFFFFFF#64) = (BitVec.allOnes 32).setWidth 64 := by decide
  rw [zeroUpperHalf, hmask, BitVec.getLsbD_and, BitVec.getLsbD_setWidth, BitVec.getLsbD_allOnes]
  simp [hk]

theorem regAfter_w32 (x : Reg64) (v : BitVec 32) : regAfter .w32 x 0 v = 0#32 ++ v := by
  refine BitVec.eq_of_getLsbD_eq fun k hk => ?_
  change (zeroUpperHalf (regInsert x 0 4 v)).getLsbD k = _
  rw [getLsbD_zeroUpperHalf _ hk, getLsbD_regInsert _ _ hk, BitVec.getLsbD_append]
  by_cases hlow : k < 32
  · rw [if_pos ⟨by omega, by omega⟩, if_pos hlow]
    simp [hlow]
  · simp [hlow]

theorem regAfter_w64 (x : Reg64) (v : BitVec 64) : regAfter .w64 x 0 v = v := by
  refine BitVec.eq_of_getLsbD_eq fun k hk => ?_
  change (regInsert x 0 8 v).getLsbD k = _
  rw [getLsbD_regInsert _ _ hk,
    if_pos ⟨by omega, by omega⟩]
  rfl

/-! The register results of every instruction without lock -/

section RegisterResult

variable {i : Instr} (hlock : i.lock = false) (hisreg : i.isreg = true)
include hlock hisreg

theorem byteRegisterResult (hwidth : i.width = .w8) : ByteRegisterResult i (specOf i.family) := by
  intro s p r ready
  have hexec : exec i s = execute i.family .w8 false true s := by rw [exec_eq_execute, hwidth, hlock, hisreg]
  refine ⟨fun hat => ?_, fun hat => ?_⟩
  · rw [hexec, execute_atReg ready hat (by decide) (fun _ => rfl)]
    exact congrArg (regDone s p r · _) (regAfter_w8_low _ _)
  · rw [hexec, execute_atReg ready hat (by decide) (fun _ => rfl)]
    exact congrArg (regDone s p r · _) (regAfter_w8_high _ _)

theorem wordRegisterResult (hwidth : i.width = .w16) : WordRegisterResult i (specOf i.family) := by
  intro s p r ready hat
  rw [exec_eq_execute, hwidth, hlock, hisreg, execute_atReg ready hat (by decide) (by decide)]
  exact congrArg (regDone s p r · _) (regAfter_w16 _ _)

theorem dwordRegisterResult (hwidth : i.width = .w32) : DwordRegisterResult i (specOf i.family) := by
  intro s p r ready hat
  rw [exec_eq_execute, hwidth, hlock, hisreg, execute_atReg ready hat (by decide) (by decide)]
  exact congrArg (regDone s p r · _) (regAfter_w32 _ _)

theorem qwordRegisterResult (hwidth : i.width = .w64) : QwordRegisterResult i (specOf i.family) := by
  intro s p r ready hat
  have hall (x : Reg64) : regSlice x 0 8 = x := by
    simp only [regSlice, Nat.mul_zero]
    exact BitVec.extractLsb'_eq_self
  rw [exec_eq_execute, hwidth, hlock, hisreg, execute_atReg ready hat (by decide) (by decide)]
  simp only [Width.bytes, hall]
  exact congrArg (regDone s p r · _) (regAfter_w64 _ _)

end RegisterResult

/-- Settles O16: the four widths, at the family NOT. -/
theorem notRegisterResults : Obligations.NotRegisterResults :=
  ⟨byteRegisterResult rfl rfl rfl, wordRegisterResult rfl rfl rfl, dwordRegisterResult rfl rfl rfl,
    qwordRegisterResult rfl rfl rfl⟩

/-- Settles O17: the four widths, at the family NEG. -/
theorem negRegisterResults : Obligations.NegRegisterResults :=
  ⟨byteRegisterResult rfl rfl rfl, wordRegisterResult rfl rfl rfl, dwordRegisterResult rfl rfl rfl,
    qwordRegisterResult rfl rfl rfl⟩

/-- Settles O18: the four widths, at the family INC. -/
theorem incRegisterResults : Obligations.IncRegisterResults :=
  ⟨byteRegisterResult rfl rfl rfl, wordRegisterResult rfl rfl rfl, dwordRegisterResult rfl rfl rfl,
    qwordRegisterResult rfl rfl rfl⟩

/-- Settles O19: the four widths, at the family DEC. -/
theorem decRegisterResults : Obligations.DecRegisterResults :=
  ⟨byteRegisterResult rfl rfl rfl, wordRegisterResult rfl rfl rfl, dwordRegisterResult rfl rfl rfl,
    qwordRegisterResult rfl rfl rfl⟩

/-- Settles O20: the byte width, at the families of the multiplexed entry. -/
theorem multiplexedRegisterResults : Obligations.MultiplexedRegisterResults :=
  ⟨byteRegisterResult rfl rfl rfl, byteRegisterResult rfl rfl rfl⟩

/-! A memory command with nothing in between -/

theorem VP.canStep_iff {p : VP} : p.canStep = true ↔ p.fault = .none ∧ (p.inflight ≠ none ∨ p.cmds ≠ []) := by
  simp [VP.canStep, Option.isSome_iff_ne_none]

/-- No other virtual processor can step exactly when the model finds the machine quiet for `v` (log 6). -/
theorem alone_iff_quiet {s : State} {v : Nat} : Alone s v ↔ s.quiet v = true := by
  simp only [quiet_iff, Alone, VP.canStep_iff]
  refine forall₃_congr fun u q _ => ?_
  tauto

/-- The whole read-modify-write of a memory command: the `n` bytes and the flags, nothing else (R121, R122). -/
def State.wholeMem (s : State) (v : Nat) (p : VP) (f : Family) (w : Width) (a : Addr) : State :=
  let d := specOf f w.bits (memRead s.mem a w.bytes) p.flags
  s.commit v { p with flags := d.2 } (memWrite s.mem a d.1 w.bytes)

section Quiet

variable {s : State} {v : Nat} (hquiet : s.quiet v = true) (p : VP) (f : Family) (w : Width) (lock : Bool) (a : Addr)
include hquiet

theorem runPlain_mem_of_quiet : s.runPlain v p f w lock (.memLoc a) = s.wholeMem v p f w a := by
  simp only [State.runPlain, hquiet, if_true, directRmw_mem, ops_eq_specOf, State.wholeMem]

theorem runAtomic_of_quiet : s.runAtomic v p f w lock a = s.wholeMem v p f w a := by
  simp only [State.runAtomic, hquiet, casIteration_eq, ops_eq_specOf, State.wholeMem, Bool.and_true, if_true]

/-- With nothing in between, the path that a memory command takes does not show (R120, R133). -/
theorem runResolved_mem_of_quiet (hcas : lock = true → a.toNat % w.bytes = 0 → s.host.hasCas w = true) :
    s.runResolved v p f w lock false (.memLoc a) = s.wholeMem v p f w a := by
  cases lock with
  | false => rw [runResolved_unlocked, runPlain_mem_of_quiet hquiet]
  | true =>
    rw [runResolved_locked_mem]
    by_cases haligned : a.toNat % w.bytes = 0
    · rw [if_neg (not_not.2 haligned), if_pos (hcas rfl haligned), runAtomic_of_quiet hquiet]
    · rw [if_pos haligned, runPlain_mem_of_quiet hquiet]

end Quiet

/-- A memory operand handed over resolves to it and goes on as a resolved command (R84). -/
theorem execute_atMem {s : State} {p : VP} {a : Addr} {w : Width} {lock : Bool} (ready : Ready s p) (hat : AtMem s a)
    (hfits : a.toNat + w.bytes ≤ 2 ^ 64) (hlock : ¬(w = .w16 ∧ lock = true)) (f : Family) :
    execute f w lock false s = .next (s.runResolved s.port.vp p f w lock false (.memLoc a)) := by
  have hat : s.port.payload = ⟨true, a⟩ := hat
  exact execute_of_resolve ready f hlock (by rw [hat]) (by rw [hat, resolve_mem hfits])

theorem memoryResult {i : Bool → Instr} {f : Family} {w : Width} {cas : HostCaps → Bool}
    (hexec : ∀ lock s, exec (i lock) s = execute f w lock false s) (hwidth : w ≠ .w16)
    (hcas : ∀ h : HostCaps, h.hasCas w = cas h) : MemoryResult i w.bytes cas (specOf f) := by
  intro s p a lock ready hat hfits halone hcap
  rw [hexec, execute_atMem ready hat hfits (fun h => hwidth h.1),
    runResolved_mem_of_quiet (alone_iff_quiet.1 halone) _ _ _ _ _ fun hl ha => (hcas _).trans (hcap hl ha)]
  rfl

theorem wordMemoryResult {i : Instr} {f : Family} (hexec : ∀ s, exec i s = execute f .w16 false false s) :
    WordMemoryResult i (specOf f) := by
  intro s p a ready hat hfits halone
  rw [hexec, execute_atMem (w := .w16) ready hat hfits (by simp),
    runResolved_mem_of_quiet (alone_iff_quiet.1 halone) _ _ _ _ _ (by simp)]
  rfl

/-- What the memory statements of a family come down to: the four widths. -/
theorem memoryResults {f : Family} {i8 i32 i64 : Bool → Instr} {i16 : Instr}
    (h8 : ∀ lock s, exec (i8 lock) s = execute f .w8 lock false s)
    (h16 : ∀ s, exec i16 s = execute f .w16 false false s)
    (h32 : ∀ lock s, exec (i32 lock) s = execute f .w32 lock false s)
    (h64 : ∀ lock s, exec (i64 lock) s = execute f .w64 lock false s) :
    MemoryResult i8 1 HostCaps.cas8 (specOf f) ∧ WordMemoryResult i16 (specOf f) ∧
      MemoryResult i32 4 HostCaps.cas32 (specOf f) ∧ MemoryResult i64 8 HostCaps.cas64 (specOf f) :=
  ⟨memoryResult (w := .w8) h8 (by decide) fun _ => rfl, wordMemoryResult h16,
    memoryResult (w := .w32) h32 (by decide) fun _ => rfl, memoryResult (w := .w64) h64 (by decide) fun _ => rfl⟩

/-- Settles O21: the four widths, at the family NOT. -/
theorem notMemoryResults : Obligations.NotMemoryResults :=
  memoryResults (f := .NOT) (fun _ _ => rfl) (fun _ => rfl) (fun _ _ => rfl) (fun _ _ => rfl)

/-- Settles O22: the four widths, at the family NEG. -/
theorem negMemoryResults : Obligations.NegMemoryResults :=
  memoryResults (f := .NEG) (fun _ _ => rfl) (fun _ => rfl) (fun _ _ => rfl) (fun _ _ => rfl)

/-- Settles O23: the four widths, at the family INC. -/
theorem incMemoryResults : Obligations.IncMemoryResults :=
  memoryResults (f := .INC) (fun _ _ => rfl) (fun _ => rfl) (fun _ _ => rfl) (fun _ _ => rfl)

/-- Settles O24: the four widths, at the family DEC. -/
theorem decMemoryResults : Obligations.DecMemoryResults :=
  memoryResults (f := .DEC) (fun _ _ => rfl) (fun _ => rfl) (fun _ _ => rfl) (fun _ _ => rfl)

/-- Settles O25: the byte width, at the families of the multiplexed entry. -/
theorem multiplexedMemoryResults : Obligations.MultiplexedMemoryResults :=
  ⟨memoryResult (f := .INC) (w := .w8) (fun _ _ => rfl) (by decide) fun _ => rfl,
    memoryResult (f := .DEC) (w := .w8) (fun _ _ => rfl) (by decide) fun _ => rfl⟩

/-! Commands that stop before the operand is used -/

/-- Settles O27: the resolver's failure is looked at before the operand. -/
theorem failedResolverTraps : Obligations.FailedResolverTraps := by
  intro i s p hlock ready hfail
  rw [exec_eq_execute, execute_of_not_resOk ready _ _ hlock hfail, raiseIllegal_eq_illegalTaken]

/-- Settles O28: at 16 bits the lock violates before the operand is resolved, at the other widths after. -/
theorem lockOnRegisterViolates : Obligations.LockOnRegisterViolates := by
  intro i s p r off hlock hisreg ready hoff hbyte hat
  by_cases hwidth : i.width = .w16
  · rw [if_pos hwidth, exec_eq_execute, hwidth, hlock, execute_lock_w16 ready, raiseViolation_eq_violationTaken]
  · have hok : s.port.payload.resOk = true := by rw [show s.port.payload = _ from hat]
    rw [if_neg hwidth, exec_eq_execute, hlock, hisreg,
      execute_of_resolve ready _ (fun h => hwidth h.1) hok (resolve_atReg hat hoff hbyte), runResolved_locked_reg,
      raiseViolation_eq_violationTaken]

section Stuck

variable {s : State} {p : VP} (hp : s.vps[s.port.vp]? = some p) (f : Family) (w : Width) (lock isreg : Bool)
include hp

/-- No command executes while the abort latch is set (R41). -/
theorem execute_of_abort (habort : s.abort = true) : execute f w lock isreg s = .fault .aborted := by
  simp [execute, hp, habort]

/-- A virtual processor with a fault record executes nothing (R208). -/
theorem execute_of_fault (habort : s.abort = false) (hfault : p.fault ≠ .none) :
    execute f w lock isreg s = .fault .vpStopped := by
  simp [execute, hp, habort, hfault]

/-- A command handed to a virtual processor whose sequencer is not idle is refused (R132; log 16). -/
theorem execute_of_busy (habort : s.abort = false) (hfault : p.fault = .none) (hseq : p.seq ≠ .idle) :
    execute f w lock isreg s = .refused .vpBusy := by
  simp [execute, hp, habort, hfault, hseq]

end Stuck

/-- The virtual processor that the schedule chooses can step (R12). -/
theorem nextVp_canStep {s s' : State} {v : Nat} (h : s.nextVp = some (v, s')) :
    ∃ p, s.vps[v]? = some p ∧ p.canStep = true :=
  mem_enabled.1 (nextVp_some h).1

/-- Settles O31: the stuck states of `execute`, and the schedule chooses only a virtual processor that can step. -/
theorem stuckAfterAbortOrFault : Obligations.StuckAfterAbortOrFault := by
  refine ⟨fun s habort => if_pos habort, fun i s p hp habort => ?_, fun i s p hp habort hfault => ?_,
    fun s s' v p hnext hp => ?_⟩
  · rw [exec_eq_execute, execute_of_abort hp _ _ _ _ habort]
  · rw [exec_eq_execute, execute_of_fault hp _ _ _ _ habort hfault]
  · obtain ⟨q, hq, hcan⟩ := nextVp_canStep hnext
    cases Option.some.inj (hp.symm.trans hq)
    exact (VP.canStep_iff.1 hcan).1

/-- A payload that does not resolve is refused for the resolver's reason (R84). -/
theorem execute_of_resolve_error {s : State} {p : VP} (ready : Ready s p) {w : Width} {lock isreg : Bool}
    {why : Refusal} (f : Family) (hlock : ¬(w = .w16 ∧ lock = true)) (hok : s.port.payload.resOk = true)
    (hloc : resolve w isreg s.port.payload.locRef = .error why) : execute f w lock isreg s = .refused why := by
  obtain ⟨hvp, habort, hfault, hseq⟩ := ready
  simp [execute, hvp, habort, hfault, hseq, hlock, hok, hloc]

/-- Settles O32: outside the contract `resolve` answers an error. -/
theorem payloadOutsideContractRefused : Obligations.PayloadOutsideContractRefused := by
  intro i s p hlock ready hok
  refine ⟨fun hisreg hout => ?_, fun hisreg hwrap => ?_⟩
  · have hloc := (resolve_reg i.width s.port.payload.locRef).trans (if_pos hout)
    rw [exec_eq_execute, hisreg, execute_of_resolve_error ready _ hlock hok hloc]
  · have hloc := (resolve_memory i.width s.port.payload.locRef).trans (if_pos hwrap)
    rw [exec_eq_execute, hisreg, execute_of_resolve_error ready _ hlock hok hloc]

end Sys2Proof.Machine
end

section
/-! One step of a command in flight (R121, R122, R244): its equations phase by phase, the one inversion lemma that every
later fact about such a step is read off, its frame, and that it keeps its virtual processor coherent. -/

namespace Sys2Proof.Machine

open Sys2Proof.Claims

/-- An operand has at least one byte (R6). -/
theorem bytes_pos (w : Width) : 0 < w.bytes := by cases w <;> decide

/-! Phases -/

/-- The sequencer state that a phase belongs to (R127, R244). -/
def Phase.seq : Phase → SeqState
  | .reading _ _ | .writing _ => .directRmw
  | .casRead | .casSwap _ _ _ => .atomicCasLoop

theorem Phase.seq_ne_idle (ph : Phase) : ph.seq ≠ .idle := by cases ph <;> nofun

/-- The path that a phase belongs to (R119). -/
def Phase.path : Phase → Path
  | .reading _ _ | .writing _ => .plain
  | .casRead | .casSwap _ _ _ => .atomic

/-- The record with its command in flight gone on to a phase. -/
def VP.inPhase (p : VP) (f : InFlight) (ph : Phase) : VP := { p with inflight := some { f with phase := ph } }

@[simp] theorem VP.inPhase_inflight (p : VP) (f : InFlight) (ph : Phase) :
    (p.inPhase f ph).inflight = some { f with phase := ph } := rfl

@[simp] theorem VP.inPhase_cmds (p : VP) (f : InFlight) (ph : Phase) : (p.inPhase f ph).cmds = p.cmds := rfl

/-! The coherence of a command in flight, phase by phase -/

section CoherentPhase

variable {f : InFlight} {fin : Flags}

theorem InFlight.coherent_reading_iff {todo : List Nat} {got : List (Nat × Byte)} (hph : f.phase = .reading todo got) :
    f.coherent fin = true ↔ f.addr.toNat + f.width.bytes ≤ 2 ^ 64 ∧ todo ≠ [] ∧
      (todo ++ got.map Prod.fst).Perm (List.range f.width.bytes) := by
  unfold InFlight.coherent
  simp [hph, List.isPerm_iff]

theorem InFlight.coherent_writing_iff {todo : List (Nat × Byte)} (hph : f.phase = .writing todo) :
    f.coherent fin = true ↔ f.addr.toNat + f.width.bytes ≤ 2 ^ 64 ∧ todo ≠ [] ∧
      (∀ kb ∈ todo, kb.1 < f.width.bytes) ∧ (todo.map Prod.fst).Nodup := by
  unfold InFlight.coherent
  simp [hph, and_assoc]

theorem InFlight.coherent_casRead_iff (hph : f.phase = .casRead) :
    f.coherent fin = true ↔ f.addr.toNat + f.width.bytes ≤ 2 ^ 64 ∧ f.lock = true := by
  unfold InFlight.coherent
  simp [hph]

theorem InFlight.coherent_casSwap_iff {old cand : BitVec 64} {lf : Flags} (hph : f.phase = .casSwap old cand lf) :
    f.coherent fin = true ↔ f.addr.toNat + f.width.bytes ≤ 2 ^ 64 ∧ f.lock = true ∧ old.toNat < 2 ^ f.width.bits ∧
      cand = (specOf f.family f.width.bits (old.setWidth _) fin).1.setWidth 64 ∧
      lf = (specOf f.family f.width.bits (old.setWidth _) fin).2 := by
  unfold InFlight.coherent
  simp [hph, and_assoc, ops_eq_specOf]

theorem InFlight.fits (h : f.coherent fin = true) : f.addr.toNat + f.width.bytes ≤ 2 ^ 64 := by
  unfold InFlight.coherent at h
  simp only [Bool.and_eq_true, decide_eq_true_eq] at h
  exact h.1

theorem InFlight.onPath_iff {h : HostCaps} :
    f.onPath h = true ↔ choosePath f.lock f.width (.memLoc f.addr) h = f.phase.path ∧
      ¬(f.width = .w16 ∧ f.lock = true) := by
  unfold InFlight.onPath
  cases f.phase <;> cases f.lock <;> simp [Phase.path]

end CoherentPhase

/-- A virtual processor with a command in flight is coherent when the command is, and the sequencer is in the state of
its phase. -/
theorem VP.coherent_iff_of_inflight {p : VP} {h : HostCaps} {f : InFlight} (hf : p.inflight = some f) :
    p.coherent h = true ↔
      p.fault = .none ∧ p.seq = f.phase.seq ∧ f.coherent p.flags = true ∧ f.onPath h = true := by
  constructor
  · intro hc
    obtain ⟨hfault, hcoh, hpath, ⟨hseq, ⟨_, _, hph⟩ | ⟨_, hph⟩⟩ | ⟨hseq, hph | ⟨_, _, _, hph⟩⟩⟩ :=
      VP.coherent_inflight hc hf
    all_goals exact ⟨hfault, by rw [hseq, hph]; rfl, hcoh, hpath⟩
  · rintro ⟨hfault, hseq, hcoh, hpath⟩
    unfold VP.coherent
    cases hph : f.phase <;> simp [hf, hfault, hseq, hph, Phase.seq, hcoh, hpath]

/-- A virtual processor that rests with nothing in flight and no fault is coherent. -/
theorem VP.coherent_of_idle {p : VP} {h : HostCaps} (hseq : p.seq = .idle) (hfault : p.fault = .none)
    (hinflight : p.inflight = none) : p.coherent h = true := by
  simp [VP.coherent, hseq, hfault, hinflight]

/-! The equations of a step, phase by phase -/

section Equations

variable {s s' : State} {v : Nat} {p : VP} {f : InFlight}

/-- One byte read of several (R56). -/
theorem microStep_read_more {todo : List Nat} {got : List (Nat × Byte)} {c k : Nat}
    (hph : f.phase = .reading todo got) (hlen : 1 < todo.length) (hchoose : s.choose todo.length = (c, s'))
    (hk : todo[c]? = some k) :
    s.microStep v p f =
      s'.setVp v (p.inPhase f (.reading (todo.eraseIdx c) ((k, s.mem.read (byteAddr f.addr k)) :: got))) := by
  have hrest : (todo.eraseIdx c).length ≠ 0 := by
    rw [List.length_eraseIdx_of_lt (List.getElem?_eq_some_iff.1 hk).1]
    omega
  simp only [State.microStep, hph, State.readByteStep, hchoose, List.getD_eq_getElem?_getD, hk, Option.getD_some]
  split
  next hnil => simp [hnil] at hrest
  next hcons => rw [hcons]; rfl

/-- The last byte read, which computes the result and writes the flags (R121; log 15). -/
theorem microStep_read_last {k : Nat} {got : List (Nat × Byte)} (hph : f.phase = .reading [k] got) :
    s.microStep v p f =
      let d := specOf f.family f.width.bits
        (bytesValue f.width.bits ((k, s.mem.read (byteAddr f.addr k)) :: got)) p.flags
      s.setVp v (({ p with flags := d.2 } : VP).inPhase f
        (.writing ((List.range f.width.bytes).map fun j => (j, byteOf d.1 j)))) := by
  simp only [State.microStep, hph, State.readByteStep, List.length_singleton, State.choose_one, ops_eq_specOf]
  rfl

/-- One byte write of several (R56). -/
theorem microStep_write_more {todo : List (Nat × Byte)} {c : Nat} {kb : Nat × Byte} (hph : f.phase = .writing todo)
    (hlen : 1 < todo.length) (hchoose : s.choose todo.length = (c, s')) (hk : todo[c]? = some kb) :
    s.microStep v p f =
      s'.commit v (p.inPhase f (.writing (todo.eraseIdx c))) (s.mem.write (byteAddr f.addr kb.1) kb.2) := by
  have hrest : (todo.eraseIdx c).length ≠ 0 := by
    rw [List.length_eraseIdx_of_lt (List.getElem?_eq_some_iff.1 hk).1]
    omega
  simp only [State.microStep, hph, State.writeByteStep, hchoose, List.getD_eq_getElem?_getD, hk, Option.getD_some]
  split
  next hnil => simp [hnil] at hrest
  next hcons => rw [hcons]; rfl

/-- The last byte write, which ends the command (R121). -/
theorem microStep_write_last {kb : Nat × Byte} (hph : f.phase = .writing [kb]) :
    s.microStep v p f = s.commit v p.endCommand (s.mem.write (byteAddr f.addr kb.1) kb.2) := by
  simp only [State.microStep, hph, State.writeByteStep, List.length_singleton, State.choose_one]
  rfl

/-- The atomic read, with the candidate and the local flags (R122). -/
theorem microStep_casRead (hph : f.phase = .casRead) :
    s.microStep v p f =
      let old := memRead s.mem f.addr f.width.bytes
      let d := specOf f.family f.width.bits old p.flags
      s.setVp v (p.inPhase f (.casSwap (old.setWidth 64) (d.1.setWidth 64) d.2)) := by
  simp only [State.microStep, hph, State.casReadStep, ops_eq_specOf]
  rfl

section Swap

variable {old cand : BitVec 64} {lf : Flags} (hc : f.coherent p.flags = true) (hph : f.phase = .casSwap old cand lf)
include hc hph

/-- The value observed is a value of the operand's width. -/
theorem setWidth_eq_old_iff (x : BitVec f.width.bits) : x.setWidth 64 = old ↔ x = old.setWidth _ := by
  obtain ⟨-, -, hold, -⟩ := (InFlight.coherent_casSwap_iff hph).1 hc
  constructor
  · rintro rfl
    rw [setWidth_setWidth_64 (bits_le_64 _)]
  · rintro rfl
    refine BitVec.eq_of_toNat_eq ?_
    rw [BitVec.toNat_setWidth, BitVec.toNat_setWidth, Nat.mod_eq_of_lt hold, Nat.mod_eq_of_lt old.isLt]

/-- A swap that finds the value observed commits the operation on it (R122, R123). -/
theorem microStep_swap_ok (heq : (memRead s.mem f.addr f.width.bytes).setWidth 64 = old) :
    s.microStep v p f =
      let d := specOf f.family f.width.bits (memRead s.mem f.addr f.width.bytes) p.flags
      s.commit v ({ p with flags := d.2 } : VP).endCommand (memWrite s.mem f.addr d.1 f.width.bytes) := by
  have hcur := (setWidth_eq_old_iff hc hph _).1 heq
  obtain ⟨-, -, -, hcand, hlf⟩ := (InFlight.coherent_casSwap_iff hph).1 hc
  rw [← hcur] at hcand hlf
  simp only [State.microStep, hph, State.casSwapStep, memCas, if_pos hcur, hcand, hlf,
    setWidth_setWidth_64 (bits_le_64 _)]
  rfl

/-- A swap that finds another value writes nothing (R122). -/
theorem microStep_swap_fail (hne : (memRead s.mem f.addr f.width.bytes).setWidth 64 ≠ old) :
    s.microStep v p f = s.setVp v (p.inPhase f .casRead) := by
  have hcur := (setWidth_eq_old_iff hc hph _).not.1 hne
  simp only [State.microStep, hph, State.casSwapStep, memCas, if_neg hcur]
  rfl

end Swap

end Equations

/-! What a step can do -/

/-- What a step of the command in flight `f` of a virtual processor with the record `p` makes of that record and of
memory `m`, one constructor for each kind of step (R244). -/
inductive MicroOutcome (m : Memory) (p : VP) (f : InFlight) : VP → Memory → Prop
  | readMore {todo : List Nat} {got : List (Nat × Byte)} {c k : Nat} (hph : f.phase = .reading todo got)
      (hlen : 1 < todo.length) (hk : todo[c]? = some k) :
      MicroOutcome m p f (p.inPhase f (.reading (todo.eraseIdx c) ((k, m.read (byteAddr f.addr k)) :: got))) m
  | readLast {k : Nat} {got : List (Nat × Byte)} {d : BitVec f.width.bits × Flags} (hph : f.phase = .reading [k] got)
      (hd : d = specOf f.family f.width.bits
        (bytesValue f.width.bits ((k, m.read (byteAddr f.addr k)) :: got)) p.flags) :
      MicroOutcome m p f (({ p with flags := d.2 } : VP).inPhase f
        (.writing ((List.range f.width.bytes).map fun j => (j, byteOf d.1 j)))) m
  | writeMore {todo : List (Nat × Byte)} {c : Nat} {kb : Nat × Byte} (hph : f.phase = .writing todo)
      (hlen : 1 < todo.length) (hk : todo[c]? = some kb) :
      MicroOutcome m p f (p.inPhase f (.writing (todo.eraseIdx c))) (m.write (byteAddr f.addr kb.1) kb.2)
  | writeLast {kb : Nat × Byte} (hph : f.phase = .writing [kb]) :
      MicroOutcome m p f p.endCommand (m.write (byteAddr f.addr kb.1) kb.2)
  | casRead {d : BitVec f.width.bits × Flags} (hph : f.phase = .casRead)
      (hd : d = specOf f.family f.width.bits (memRead m f.addr f.width.bytes) p.flags) :
      MicroOutcome m p f
        (p.inPhase f (.casSwap ((memRead m f.addr f.width.bytes).setWidth 64) (d.1.setWidth 64) d.2)) m
  | swapOk {old cand : BitVec 64} {lf : Flags} {d : BitVec f.width.bits × Flags} (hph : f.phase = .casSwap old cand lf)
      (heq : (memRead m f.addr f.width.bytes).setWidth 64 = old)
      (hd : d = specOf f.family f.width.bits (memRead m f.addr f.width.bytes) p.flags) :
      MicroOutcome m p f ({ p with flags := d.2 } : VP).endCommand (memWrite m f.addr d.1 f.width.bytes)
  | swapFail {old cand : BitVec 64} {lf : Flags} (hph : f.phase = .casSwap old cand lf)
      (hne : (memRead m f.addr f.width.bytes).setWidth 64 ≠ old) :
      MicroOutcome m p f (p.inPhase f .casRead) m

/-- A list that is not empty holds one element, or more and then a choice among them names one. -/
theorem singleton_or_chosen {α : Type} (s : State) {l : List α} (h : l ≠ []) :
    (∃ x, l = [x]) ∨ (1 < l.length ∧ ∃ x, l[(s.choose l.length).1]? = some x) := by
  have hpos := List.length_pos_of_ne_nil h
  by_cases hlen : 1 < l.length
  · exact .inr ⟨hlen, _, List.getElem?_eq_getElem (s.choose_lt hpos)⟩
  · exact .inl (List.length_eq_one_iff.1 (by omega))

/-- What a step of a coherent command in flight does: a free choice, then one of the outcomes, as the new record and the
new memory. -/
theorem microStep_outcome (s : State) (v : Nat) {p : VP} {f : InFlight} (hc : f.coherent p.flags = true) :
    ∃ k q m, s.microStep v p f = (s.choose k).2.commit v q m ∧ MicroOutcome s.mem p f q m := by
  have hnone : s = (s.choose 1).2 := by rw [State.choose_one]
  have hmem (k : Nat) (q : VP) : (s.choose k).2.setVp v q = (s.choose k).2.commit v q s.mem := by
    rw [State.commit, ← State.choose_mem s k]
    rfl
  cases hph : f.phase with
  | reading todo got =>
    obtain ⟨-, hne, -⟩ := (InFlight.coherent_reading_iff hph).1 hc
    obtain ⟨k, rfl⟩ | ⟨hlen, k, hk⟩ := singleton_or_chosen s hne
    · exact ⟨1, _, _, (microStep_read_last hph).trans (by rw [← hmem, ← hnone]), .readLast hph rfl⟩
    · exact ⟨_, _, _, (microStep_read_more hph hlen rfl hk).trans (hmem _ _), .readMore hph hlen hk⟩
  | writing todo =>
    obtain ⟨-, hne, -⟩ := (InFlight.coherent_writing_iff hph).1 hc
    obtain ⟨kb, rfl⟩ | ⟨hlen, kb, hk⟩ := singleton_or_chosen s hne
    · exact ⟨1, _, _, (microStep_write_last hph).trans (by rw [← hnone]), .writeLast hph⟩
    · exact ⟨_, _, _, microStep_write_more hph hlen rfl hk, .writeMore hph hlen hk⟩
  | casRead =>
    exact ⟨1, _, _, (microStep_casRead hph).trans (by rw [← hmem, ← hnone]), .casRead hph rfl⟩
  | casSwap old cand lf =>
    by_cases heq : (memRead s.mem f.addr f.width.bytes).setWidth 64 = old
    · exact ⟨1, _, _, (microStep_swap_ok hc hph heq).trans (by rw [← hnone]), .swapOk hph heq rfl⟩
    · exact ⟨1, _, _, (microStep_swap_fail hc hph heq).trans (by rw [← hmem, ← hnone]), .swapFail hph heq⟩

/-- A byte write inside the operand leaves the bytes outside it alone (R73). -/
theorem write_bytesOutsideKept {m : Memory} (hm : m.wf = true) {a : Addr} {n k : Nat} (h : a.toNat + n ≤ 2 ^ 64)
    (hk : k < n) (b : Byte) : BytesOutsideKept a n m (m.write (byteAddr a k) b) := by
  intro x hx
  refine Memory.read_write_other hm ?_ b
  rw [byteAddr_eq h hk]
  omega

namespace MicroOutcome

variable {m m' : Memory} {p q : VP} {f : InFlight}

theorem regs (h : MicroOutcome m p f q m') : q.regs = p.regs := by cases h <;> rfl

theorem cmds (h : MicroOutcome m p f q m') : q.cmds = p.cmds := by cases h <;> rfl

theorem fault (h : MicroOutcome m p f q m') : q.fault = p.fault := by cases h <;> rfl

/-- The flags are as before, or the operation's on some value of the operand. -/
theorem flags (h : MicroOutcome m p f q m') :
    q.flags = p.flags ∨ ∃ x, q.flags = (specOf f.family f.width.bits x p.flags).2 := by
  cases h with
  | readMore | writeMore | writeLast | casRead | swapFail => exact .inl rfl
  | readLast _ hd | swapOk _ _ hd => exact .inr ⟨_, by rw [hd]; rfl⟩

/-- A step keeps the canonical form of memory. -/
theorem mem_wf (h : MicroOutcome m p f q m') (hm : m.wf = true) : m'.wf = true := by
  cases h with
  | readMore | readLast | casRead | swapFail => exact hm
  | writeMore | writeLast => exact Memory.write_wf hm (byteAddr_lt _ _) _
  | swapOk => exact memWrite_wf hm _ _ _

/-- A step changes no byte outside the operand (R73). -/
theorem bytesOutsideKept (h : MicroOutcome m p f q m') (hm : m.wf = true) (hc : f.coherent p.flags = true) :
    BytesOutsideKept f.addr f.width.bytes m m' := by
  have hfits := InFlight.fits hc
  cases h with
  | readMore | readLast | casRead | swapFail => exact fun _ _ => rfl
  | writeMore hph _ hk =>
    obtain ⟨-, -, hin, -⟩ := (InFlight.coherent_writing_iff hph).1 hc
    exact write_bytesOutsideKept hm hfits (hin _ (List.mem_of_getElem? hk)) _
  | writeLast hph =>
    obtain ⟨-, -, hin, -⟩ := (InFlight.coherent_writing_iff hph).1 hc
    exact write_bytesOutsideKept hm hfits (hin _ (List.mem_singleton_self _)) _
  | swapOk => exact memWrite_bytesOutsideKept hm _ hfits

/-- The command ends, or stays in flight on its path. -/
theorem inflight (h : MicroOutcome m p f q m') :
    (q.seq = .idle ∧ q.inflight = none) ∨
      (q.seq = p.seq ∧
        ∃ ph, q.inflight = some { f with phase := ph } ∧ ph.seq = f.phase.seq ∧ ph.path = f.phase.path) := by
  cases h with
  | writeLast | swapOk => exact .inl ⟨rfl, rfl⟩
  | readMore hph | readLast hph | writeMore hph | casRead hph | swapFail hph =>
    exact .inr ⟨rfl, _, rfl, by rw [hph]; rfl, by rw [hph]; rfl⟩

/-- The phase a command in flight goes on to belongs to it. -/
theorem phase_coherent (h : MicroOutcome m p f q m') (hc : f.coherent p.flags = true) {f' : InFlight}
    (hf' : q.inflight = some f') : f'.coherent q.flags = true := by
  have hfits := InFlight.fits hc
  cases h with
  | writeLast | swapOk => cases hf'
  | readMore hph hlen hk =>
    cases hf'
    obtain ⟨-, -, hperm⟩ := (InFlight.coherent_reading_iff hph).1 hc
    obtain ⟨hlt, rfl⟩ := List.getElem?_eq_some_iff.1 hk
    refine (InFlight.coherent_reading_iff rfl).2 ⟨hfits, ?_, ?_⟩
    · refine List.ne_nil_of_length_pos ?_
      rw [List.length_eraseIdx_of_lt hlt]
      omega
    · refine List.Perm.trans ?_ hperm
      rw [List.map_cons]
      exact List.perm_middle.trans ((List.getElem_cons_eraseIdx_perm hlt).append_right _)
  | readLast hph hd =>
    cases hf'
    refine (InFlight.coherent_writing_iff rfl).2 ⟨hfits, ?_, ?_, ?_⟩
    · exact List.ne_nil_of_length_pos (by simpa using bytes_pos f.width)
    · simp
    · simpa [List.map_map, Function.comp_def] using List.nodup_range
  | writeMore hph hlen hk =>
    cases hf'
    obtain ⟨-, -, hin, hnodup⟩ := (InFlight.coherent_writing_iff hph).1 hc
    obtain ⟨hlt, rfl⟩ := List.getElem?_eq_some_iff.1 hk
    refine (InFlight.coherent_writing_iff rfl).2 ⟨hfits, ?_, fun kb hkb => hin kb (List.mem_of_mem_eraseIdx hkb), ?_⟩
    · refine List.ne_nil_of_length_pos ?_
      rw [List.length_eraseIdx_of_lt hlt]
      omega
    · exact hnodup.sublist ((List.eraseIdx_sublist _ _).map _)
  | casRead hph hd =>
    cases hf'
    obtain ⟨-, hlock⟩ := (InFlight.coherent_casRead_iff hph).1 hc
    have hold := setWidth_setWidth_64 (bits_le_64 f.width) (memRead m f.addr f.width.bytes)
    refine (InFlight.coherent_casSwap_iff rfl).2 ⟨hfits, hlock, ?_, ?_, ?_⟩
    · rw [BitVec.toNat_setWidth]
      exact (Nat.mod_le _ _).trans_lt (BitVec.isLt _)
    · rw [hd, hold]
      rfl
    · rw [hd, hold]
      rfl
  | swapFail hph =>
    cases hf'
    obtain ⟨-, hlock, -⟩ := (InFlight.coherent_casSwap_iff hph).1 hc
    exact (InFlight.coherent_casRead_iff rfl).2 ⟨hfits, hlock⟩

/-- A step keeps its virtual processor coherent. -/
theorem vp_coherent (h : MicroOutcome m p f q m') {host : HostCaps} (hp : p.coherent host = true)
    (hf : p.inflight = some f) : q.coherent host = true := by
  obtain ⟨hfault, hseq, hc, hpath⟩ := (VP.coherent_iff_of_inflight hf).1 hp
  have hfault' := h.fault.trans hfault
  obtain ⟨hidle, hnone⟩ | ⟨hsame, ph, hf', hphseq, hphpath⟩ := h.inflight
  · exact VP.coherent_of_idle hidle hfault' hnone
  · refine (VP.coherent_iff_of_inflight hf').2
      ⟨hfault', hsame.trans (hseq.trans hphseq.symm), h.phase_coherent hc hf', InFlight.onPath_iff.2 ?_⟩
    rw [hphpath]
    exact InFlight.onPath_iff.1 hpath

end MicroOutcome

end Sys2Proof.Machine
end

section
/-! What every step keeps: the coherence of the machine, its configuration, the fault records, and the records
of all but one virtual processor (R41, R42, R132, R206, R208). -/

namespace Sys2Proof.Machine

open Sys2Proof.Claims

/-! A memory command that enters its commit path -/

/-- The record of a virtual processor whose command enters its commit path (R127). -/
def VP.begin (p : VP) (f : InFlight) : VP := { p with seq := f.phase.seq, inflight := some f }

/-- A plain command before its first access (R121). -/
def InFlight.plainStart (f : Family) (w : Width) (a : Addr) (lock : Bool) : InFlight :=
  ⟨f, w, a, lock, .reading (List.range w.bytes) []⟩

/-- A locked command before its first access (R122). -/
def InFlight.atomicStart (f : Family) (w : Width) (a : Addr) (lock : Bool) : InFlight := ⟨f, w, a, lock, .casRead⟩

section Contended

variable {s : State} {v : Nat} (hquiet : s.quiet v = false) (p : VP) (f : Family) (w : Width) (lock : Bool) (a : Addr)
include hquiet

theorem runPlain_mem_of_contended :
    s.runPlain v p f w lock (.memLoc a) =
      s.microStep v (p.begin (.plainStart f w a lock)) (.plainStart f w a lock) := by
  simp only [State.runPlain, hquiet]
  rfl

theorem runAtomic_of_contended :
    s.runAtomic v p f w lock a = s.microStep v (p.begin (.atomicStart f w a lock)) (.atomicStart f w a lock) := by
  simp only [State.runAtomic, hquiet]
  rfl

end Contended

theorem InFlight.plainStart_coherent {a : Addr} {w : Width} (hfits : a.toNat + w.bytes ≤ 2 ^ 64) (f : Family)
    (lock : Bool) (fin : Flags) : (InFlight.plainStart f w a lock).coherent fin = true := by
  refine (InFlight.coherent_reading_iff rfl).2 ⟨hfits, ?_, ?_⟩
  · exact List.ne_nil_of_length_pos (by simpa using bytes_pos w)
  · rw [List.map_nil, List.append_nil]
    exact .refl _

theorem InFlight.atomicStart_coherent {a : Addr} {w : Width} (hfits : a.toNat + w.bytes ≤ 2 ^ 64) (f : Family)
    (fin : Flags) : (InFlight.atomicStart f w a true).coherent fin = true :=
  (InFlight.coherent_casRead_iff rfl).2 ⟨hfits, rfl⟩

/-- A command that enters the path it was given leaves its virtual processor coherent. -/
theorem VP.begin_coherent {p : VP} (hfault : p.fault = .none) {f : InFlight} (hc : f.coherent p.flags = true)
    {h : HostCaps} (hpath : choosePath f.lock f.width (.memLoc f.addr) h = f.phase.path)
    (hlock : ¬(f.width = .w16 ∧ f.lock = true)) : (p.begin f).coherent h = true :=
  (VP.coherent_iff_of_inflight rfl).2 ⟨hfault, rfl, hc, InFlight.onPath_iff.2 ⟨hpath, hlock⟩⟩

/-! Coherence of the states after a step -/

section Coherent

variable {s : State} (hs : s.coherent = true) {v : Nat} {p₀ : VP} (hp₀ : s.vps[v]? = some p₀)
  (hfault₀ : p₀.fault = .none)
include hs hp₀ hfault₀

/-- A step of a command in flight, whether its virtual processor's record is the one in the state or the one that has
just begun the command. -/
theorem microStep_coherent {p : VP} {f : InFlight} (hp : p.coherent s.host = true) (hf : p.inflight = some f) :
    (s.microStep v p f).coherent = true := by
  obtain ⟨-, hm, -, -⟩ := State.coherent_iff.1 hs
  obtain ⟨hfault, -, hc, -⟩ := (VP.coherent_iff_of_inflight hf).1 hp
  obtain ⟨k, q, m, heq, hout⟩ := microStep_outcome s v hc
  have hviolated : q.violated = false := by simp [VP.violated, hout.fault, hfault]
  rw [heq]
  refine State.coherent_of_set hs hp₀ hfault₀ (q := q) (by simp) (hout.vp_coherent hp hf) (by simp) (hout.mem_wf hm) ?_
  simp [hviolated]

/-- A command that ends in one step with registers, flags and memory changed. -/
theorem commit_coherent {q : VP} {m : Memory} (hseq : q.seq = .idle) (hfault : q.fault = .none)
    (hinflight : q.inflight = none) (hm : m.wf = true) : (s.commit v q m).coherent = true := by
  have hviolated : q.violated = false := by simp [VP.violated, hfault]
  refine State.coherent_of_set hs hp₀ hfault₀ rfl (VP.coherent_of_idle hseq hfault hinflight) rfl hm ?_
  simp [hviolated]

theorem raiseIllegal_coherent {p : VP} (hinflight : p.inflight = none) (code : IllegalCode) :
    (s.raiseIllegal v p code).coherent = true := by
  obtain ⟨-, hm, -, -⟩ := State.coherent_iff.1 hs
  refine State.coherent_of_set hs hp₀ hfault₀ rfl ?_ rfl hm ?_
  · simp [VP.coherent, hinflight]
  · simp [VP.violated]

theorem raiseViolation_coherent {p : VP} (hinflight : p.inflight = none) (code : ViolationCode) :
    (s.raiseViolation v p code).coherent = true := by
  obtain ⟨-, hm, -, -⟩ := State.coherent_iff.1 hs
  refine State.coherent_of_set hs hp₀ hfault₀ rfl ?_ rfl hm ?_
  · simp [VP.coherent, hinflight]
  · simp [VP.violated]

/-- Taking the next command off a list. -/
theorem present_coherent (c : Command) (rest : List Command) : (s.present v p₀ c rest).coherent = true := by
  obtain ⟨-, hm, hall, -⟩ := State.coherent_iff.1 hs
  have hviolated : VP.violated { p₀ with cmds := rest } = false := by simp [VP.violated, hfault₀]
  refine State.coherent_of_set hs hp₀ hfault₀ rfl ?_ rfl hm (by simp [State.present, hviolated])
  exact hall p₀ (List.mem_of_getElem? hp₀)

end Coherent

/-- An idle sequencer has no command in flight. -/
theorem VP.inflight_none_of_idle {p : VP} {h : HostCaps} (hc : p.coherent h = true) (hseq : p.seq = .idle) :
    p.inflight = none := by
  refine Option.eq_none_iff_forall_ne_some.2 fun f hf => ?_
  obtain ⟨-, hphase, -⟩ := (VP.coherent_iff_of_inflight hf).1 hc
  exact f.phase.seq_ne_idle (hphase.symm.trans hseq)

theorem inflight_none_of_idle {s : State} (hs : s.coherent = true) {v : Nat} {p : VP} (hp : s.vps[v]? = some p)
    (hseq : p.seq = .idle) : p.inflight = none := by
  obtain ⟨-, -, hall, -⟩ := State.coherent_iff.1 hs
  exact VP.inflight_none_of_idle (hall p (List.mem_of_getElem? hp)) hseq

section Exec

variable {s : State} (hs : s.coherent = true) {v : Nat} {p : VP} (hp : s.vps[v]? = some p) (hfault : p.fault = .none)
  (hseq : p.seq = .idle)
include hs hp hfault hseq

theorem wholeMem_coherent (f : Family) (w : Width) (a : Addr) : (s.wholeMem v p f w a).coherent = true := by
  obtain ⟨-, hm, -, -⟩ := State.coherent_iff.1 hs
  have hinflight := inflight_none_of_idle hs hp hseq
  exact commit_coherent hs hp hfault (q := { p with flags := _ }) hseq hfault hinflight (memWrite_wf hm _ _ _)

theorem runPlain_coherent {f : Family} {w : Width} {lock : Bool} {loc : Location} (hlock : ¬(w = .w16 ∧ lock = true))
    (hpath : choosePath lock w loc s.host = .plain) (hfits : ∀ a, loc = .memLoc a → a.toNat + w.bytes ≤ 2 ^ 64) :
    (s.runPlain v p f w lock loc).coherent = true := by
  obtain ⟨-, hm, -, -⟩ := State.coherent_iff.1 hs
  cases loc with
  | regLoc r off =>
    have hinflight := inflight_none_of_idle hs hp hseq
    rw [State.runPlain, directRmw_reg]
    exact commit_coherent hs hp hfault hseq hfault hinflight hm
  | memLoc a =>
    cases hquiet : s.quiet v with
    | true =>
      rw [runPlain_mem_of_quiet hquiet]
      exact wholeMem_coherent hs hp hfault hseq f w a
    | false =>
      rw [runPlain_mem_of_contended hquiet]
      refine microStep_coherent hs hp hfault (VP.begin_coherent hfault ?_ hpath hlock) rfl
      exact InFlight.plainStart_coherent (hfits a rfl) f lock p.flags

theorem runAtomic_coherent {f : Family} {w : Width} {lock : Bool} {a : Addr} (hlock : ¬(w = .w16 ∧ lock = true))
    (hpath : choosePath lock w (.memLoc a) s.host = .atomic) (hfits : a.toNat + w.bytes ≤ 2 ^ 64) :
    (s.runAtomic v p f w lock a).coherent = true := by
  obtain ⟨-, rfl, -, -⟩ | ⟨hother, -⟩ | ⟨hother, -⟩ := choosePath_mem lock w a s.host
  · cases hquiet : s.quiet v with
    | true =>
      rw [runAtomic_of_quiet hquiet]
      exact wholeMem_coherent hs hp hfault hseq f w a
    | false =>
      rw [runAtomic_of_contended hquiet]
      refine microStep_coherent hs hp hfault (VP.begin_coherent hfault ?_ hpath hlock) rfl
      exact InFlight.atomicStart_coherent hfits f p.flags
  · exact absurd (hpath.symm.trans hother) (by decide)
  · exact absurd (hpath.symm.trans hother) (by decide)

theorem runResolved_coherent {f : Family} {w : Width} {lock isreg : Bool} {loc : Location}
    (hlock : ¬(w = .w16 ∧ lock = true)) (hfits : ∀ a, loc = .memLoc a → a.toNat + w.bytes ≤ 2 ^ 64) :
    (s.runResolved v p f w lock isreg loc).coherent = true := by
  have hinflight := inflight_none_of_idle hs hp hseq
  rcases runResolved_cases s v p f w lock isreg loc with
    ⟨-, -, hrun⟩ | ⟨-, ⟨-, hrun⟩ | ⟨a, rfl, hpath, hrun⟩ | ⟨hpath, hrun⟩⟩ <;> rw [hrun]
  · exact raiseViolation_coherent hs hp hfault hinflight _
  · exact raiseIllegal_coherent hs hp hfault hinflight _
  · exact runAtomic_coherent hs hp hfault hseq hlock hpath (hfits a rfl)
  · exact runPlain_coherent hs hp hfault hseq hlock hpath hfits

end Exec

/-- A memory location that the resolver gives does not run past the top of memory (R51). -/
theorem fits_of_resolve {w : Width} {isreg : Bool} {x : BitVec 64} {loc : Location} (h : resolve w isreg x = .ok loc)
    (a : Addr) (hloc : loc = .memLoc a) : a.toNat + w.bytes ≤ 2 ^ 64 := by
  obtain ⟨-, rfl, -⟩ | ⟨-, rfl, hfits⟩ := resolve_ok h
  · cases hloc
  · cases hloc
    exact hfits

/-- Every meaning keeps coherence. -/
theorem exec_coherent {i : Instr} {s t : State} (hs : s.coherent = true) (h : exec i s = .next t) :
    t.coherent = true := by
  rw [exec_eq_execute] at h
  obtain ⟨p, hp, -, hfault, hseq, ⟨-, -, rfl⟩ | ⟨-, -, rfl⟩ | ⟨hlock, -, loc, hloc, rfl⟩⟩ := execute_cases h
  · exact raiseViolation_coherent hs hp hfault (inflight_none_of_idle hs hp hseq) _
  · exact raiseIllegal_coherent hs hp hfault (inflight_none_of_idle hs hp hseq) _
  · exact runResolved_coherent hs hp hfault hseq hlock (fits_of_resolve hloc)

/-! The schedule's choice -/

/-- Choosing a virtual processor changes nothing but the free choices (R12). -/
theorem nextVp_sameButChoices {s s' : State} {v : Nat} (h : s.nextVp = some (v, s')) : SameButChoices s s' := by
  obtain ⟨-, rfl⟩ := nextVp_some h
  exact ⟨by simp, by simp, by simp, by simp, by simp⟩

theorem coherent_of_sameButChoices {s s' : State} (h : SameButChoices s s') (hs : s.coherent = true) :
    s'.coherent = true := by
  obtain ⟨hvps, hmem, habort, hhost, -⟩ := h
  simpa only [State.coherent, hvps, hmem, habort, hhost] using hs

/-- The virtual processor that the schedule chooses, in the state after the choice (R12, R208). -/
theorem nextVp_fault {s s' : State} {v : Nat} {p : VP} (h : s.nextVp = some (v, s')) (hp : s'.vps[v]? = some p) :
    s.vps[v]? = some p ∧ p.fault = .none := by
  obtain ⟨q, hq, hcan⟩ := nextVp_canStep h
  obtain ⟨hvps, -⟩ := nextVp_sameButChoices h
  rw [hvps] at hp
  cases Option.some.inj (hp.symm.trans hq)
  exact ⟨hp, (VP.canStep_iff.1 hcan).1⟩

/-! Every step keeps coherence -/

/-- Settles O52: a step is a free choice and then a step of a command in flight, a reserved encoding's trap or a
meaning, each of which keeps coherence. -/
theorem stepKeepsCoherence : Obligations.StepKeepsCoherence := by
  intro s t hs hstep
  obtain ⟨-, v, s', hnext, p, hp, hcases⟩ := step_cases hstep
  have hs' := coherent_of_sameButChoices (nextVp_sameButChoices hnext) hs
  obtain ⟨-, hfault⟩ := nextVp_fault hnext hp
  obtain ⟨f, hf, rfl⟩ | ⟨c, rest, code, hnone, -, -, rfl⟩ | ⟨c, rest, i, -, -, -, hexec⟩ := hcases
  · obtain ⟨-, -, hall, -⟩ := State.coherent_iff.1 hs'
    exact microStep_coherent hs' hp hfault (hall p (List.mem_of_getElem? hp)) hf
  · have hlt : v < s'.vps.length := (List.getElem?_eq_some_iff.1 hp).1
    exact raiseIllegal_coherent (p₀ := { p with cmds := rest }) (p := { p with cmds := rest })
      (present_coherent hs' hp hfault c rest) (List.getElem?_set_self hlt) hfault hnone code
  · exact exec_coherent (present_coherent hs' hp hfault c rest) hexec

/-- Settles O53: a launched virtual processor rests idle, and none is violated. -/
theorem launchIsCoherent : Obligations.LaunchIsCoherent := by
  have hlaunch : ∀ init : Init, init.vps ≠ [] → init.mem.wf = true → (State.launch init).coherent = true := by
    intro init hne hm
    refine State.coherent_iff.2 ⟨?_, hm, fun p hp => ?_, ?_⟩
    · simpa [State.launch] using hne
    · obtain ⟨x, -, rfl⟩ := List.mem_map.1 hp
      exact VP.coherent_of_idle rfl rfl rfl
    · refine (List.any_eq_false.2 fun p hp => ?_).symm
      obtain ⟨x, -, rfl⟩ := List.mem_map.1 hp
      exact Bool.false_ne_true
  exact ⟨hlaunch, hlaunch Init.reset (by simp [Init.reset, Config.resetNvp]) rfl⟩

/-! What a step leaves alone -/

/-- A meaning replaces the record of its own virtual processor, and changes neither host nor port. -/
theorem exec_vps {i : Instr} {s t : State} (h : exec i s = .next t) :
    ∃ q, t.vps = s.vps.set s.port.vp q ∧ t.host = s.host ∧ t.port = s.port := by
  rw [exec_eq_execute] at h
  obtain ⟨p, -, -, -, -, ⟨-, -, rfl⟩ | ⟨-, -, rfl⟩ | ⟨-, -, loc, -, hrun⟩⟩ := execute_cases h
  · exact ⟨_, rfl, rfl, rfl⟩
  · exact ⟨_, rfl, rfl, rfl⟩
  · obtain ⟨c, rfl⟩ | ⟨c, rfl⟩ | ⟨q, hvps, -, -, -, hhost, hport, -⟩ := runResolved_frame hrun
    · exact ⟨_, rfl, rfl, rfl⟩
    · exact ⟨_, rfl, rfl, rfl⟩
    · exact ⟨q, hvps, hhost, hport⟩

/-- A step replaces the record of one virtual processor, which had no fault record, and does not change the host. -/
theorem step_vps {s t : State} (h : step s = .next t) :
    ∃ v p q, s.vps[v]? = some p ∧ p.fault = .none ∧ t.vps = s.vps.set v q ∧ t.host = s.host := by
  obtain ⟨-, v, s', hnext, p, hp', hcases⟩ := step_cases h
  obtain ⟨hp, hfault⟩ := nextVp_fault hnext hp'
  obtain ⟨hvps, -, -, hhost, -⟩ := nextVp_sameButChoices hnext
  rw [← hvps, ← hhost]
  obtain ⟨f, -, rfl⟩ | ⟨c, rest, code, -, -, -, rfl⟩ | ⟨c, rest, i, -, -, -, hexec⟩ := hcases
  · obtain ⟨q, hq, -, -, -, -, -, hmicro, -⟩ := microStep_frame s' v p f
    exact ⟨v, p, q, hp', hfault, hq, hmicro⟩
  · exact ⟨v, p, _, hp', hfault, List.set_set .., rfl⟩
  · obtain ⟨q, hq, hexecHost, -⟩ := exec_vps hexec
    exact ⟨v, p, q, hp', hfault, hq.trans (List.set_set ..), hexecHost⟩

/-- Settles O55: the record that a step replaces had no fault. -/
theorem faultRecordsAndConfigurationStay : Obligations.FaultRecordsAndConfigurationStay := by
  intro s t hstep
  obtain ⟨v, p, q, hp, hnone, hvps, hhost⟩ := step_vps hstep
  refine ⟨hhost, by rw [hvps, List.length_set], fun u r hr hfault => ?_⟩
  have hne : v ≠ u := by
    rintro rfl
    cases Option.some.inj (hp.symm.trans hr)
    exact hfault hnone
  rw [hvps, List.getElem?_set_ne hne, hr]

/-- Settles O56: a step replaces one record. -/
theorem stepChangesOneVirtualProcessor : Obligations.StepChangesOneVirtualProcessor := by
  intro s t hstep
  obtain ⟨v, -, q, -, -, hvps, -⟩ := step_vps hstep
  exact ⟨v, fun u hne => by rw [hvps, List.getElem?_set_ne hne.symm]⟩

/-! Frames -/

/-- The flags that the family does not write are as before (R29). -/
def KeepsFlags (f : Family) (fin fin' : Flags) : Prop :=
  (f = .NOT → fin' = fin) ∧ (f = .INC ∨ f = .DEC → fin'.CF = fin.CF)

theorem keepsFlags_refl (f : Family) (fin : Flags) : KeepsFlags f fin fin := ⟨fun _ => rfl, fun _ => rfl⟩

theorem keepsFlags_specOf (f : Family) {W : Nat} (x : BitVec W) (fin : Flags) :
    KeepsFlags f fin (specOf f W x fin).2 := by
  cases f with
  | NOT => exact ⟨fun _ => rfl, nofun⟩
  | NEG => exact ⟨nofun, nofun⟩
  | INC | DEC => exact ⟨nofun, fun _ => rfl⟩

/-- A state that differs from another in memory and in the record of one virtual processor, which keeps its list and the
flags that the family does not write. -/
theorem commonFrame_of_set {s t : State} {v : Nat} {p q : VP} {f : Family} (hp : s.vps[v]? = some p)
    (hvps : t.vps = s.vps.set v q) (hhost : t.host = s.host) (hport : t.port = s.port) (hcmds : q.cmds = p.cmds)
    (hflags : KeepsFlags f p.flags q.flags) : CommonFrame f v p s t := by
  refine ⟨hhost, hport, by rw [hvps, List.length_set], fun u hne => by rw [hvps, List.getElem?_set_ne hne.symm],
    q, ?_, hcmds, hflags⟩
  rw [hvps, List.getElem?_set_self (List.getElem?_eq_some_iff.1 hp).1]

/-- What a meaning changes: the record of its virtual processor, which keeps its list, the flags that its family writes,
and the operand, one register or bytes of memory; nothing of the operand where it takes a fault. -/
theorem exec_frame {i : Instr} {s t : State} {p : VP} (hp : s.vps[s.port.vp]? = some p) (h : exec i s = .next t) :
    ∃ q, t.vps[s.port.vp]? = some q ∧ CommonFrame i.family s.port.vp p s t ∧
      ((t.mem = s.mem ∧ q.regs = p.regs) ∨
       (∃ r off, resolve i.width i.isreg s.port.payload.locRef = .ok (.regLoc r off) ∧ t.mem = s.mem ∧
          ∀ r', r' ≠ r → q.reg r' = p.reg r') ∨
       (∃ a, resolve i.width i.isreg s.port.payload.locRef = .ok (.memLoc a) ∧ q.regs = p.regs ∧
          ∃ x : BitVec i.width.bits, t.mem = memWrite s.mem a x i.width.bytes)) := by
  have hself (q : VP) : (s.vps.set s.port.vp q)[s.port.vp]? = some q :=
    List.getElem?_set_self (List.getElem?_eq_some_iff.1 hp).1
  have hfaulted {q : VP} (hvps : t.vps = s.vps.set s.port.vp q) (hhost : t.host = s.host) (hport : t.port = s.port)
      (hcmds : q.cmds = p.cmds) (hflags : q.flags = p.flags) : CommonFrame i.family s.port.vp p s t :=
    commonFrame_of_set hp hvps hhost hport hcmds (hflags ▸ keepsFlags_refl i.family p.flags)
  rw [exec_eq_execute] at h
  obtain ⟨p', hp', -, -, -, ⟨-, -, rfl⟩ | ⟨-, -, rfl⟩ | ⟨-, -, loc, hloc, hrun⟩⟩ := execute_cases h <;>
    cases Option.some.inj (hp.symm.trans hp')
  · exact ⟨_, hself _, hfaulted rfl rfl rfl rfl rfl, .inl ⟨rfl, rfl⟩⟩
  · exact ⟨_, hself _, hfaulted rfl rfl rfl rfl rfl, .inl ⟨rfl, rfl⟩⟩
  · obtain ⟨c, rfl⟩ | ⟨c, rfl⟩ | ⟨q, hvps, -, hcmds, -, hhost, hport, x, hflags, hoperand⟩ := runResolved_frame hrun
    · exact ⟨_, hself _, hfaulted rfl rfl rfl rfl rfl, .inl ⟨rfl, rfl⟩⟩
    · exact ⟨_, hself _, hfaulted rfl rfl rfl rfl rfl, .inl ⟨rfl, rfl⟩⟩
    · have hkeeps : KeepsFlags i.family p.flags q.flags := by
        rw [ops_eq_specOf] at hflags
        obtain hflags | hflags := hflags <;> rw [hflags]
        · exact keepsFlags_refl ..
        · exact keepsFlags_specOf ..
      refine ⟨q, by rw [hvps, hself], commonFrame_of_set hp hvps hhost hport hcmds hkeeps, ?_⟩
      obtain ⟨r, off, rfl, hmem, hregs⟩ | ⟨a, rfl, hregs, hmem | ⟨y, hmem⟩⟩ := hoperand
      · exact .inr (.inl ⟨r, off, hloc, hmem, hregs⟩)
      · exact .inl ⟨hmem, hregs⟩
      · exact .inr (.inr ⟨a, hloc, hregs, y, hmem⟩)

/-- Settles O33: the frame of a meaning, where the register that it writes is the one the resolver names. -/
theorem registerFormFrame : Obligations.RegisterFormFrame := by
  intro i s t p hisreg hp hexec
  obtain ⟨q, hq, hframe, hoperand⟩ := exec_frame hp hexec
  rw [hisreg] at hoperand
  obtain ⟨hmem, hregs⟩ | ⟨r, off, hloc, hmem, hregs⟩ | ⟨a, hloc, -⟩ := hoperand
  · exact ⟨hframe, fun a => by rw [hmem], q, hq, fun r _ => by rw [hregs]⟩
  · refine ⟨hframe, fun a => by rw [hmem], q, hq, fun r' hr' => hregs r' ?_⟩
    rintro rfl
    rw [resolve_reg] at hloc
    split_ifs at hloc
    cases hloc
    exact hr' rfl
  · obtain ⟨-, h, -⟩ | ⟨h, -⟩ := resolve_ok hloc <;> cases h

/-- Settles O34: the frame of a meaning, where the bytes that it writes are those at the resolver's address. -/
theorem memoryFormFrame : Obligations.MemoryFormFrame := by
  intro i s t p hisreg hm hp hexec
  obtain ⟨q, hq, hframe, hoperand⟩ := exec_frame hp hexec
  rw [hisreg] at hoperand
  obtain ⟨hmem, hregs⟩ | ⟨r, off, hloc, -⟩ | ⟨a, hloc, hregs, x, hmem⟩ := hoperand
  · exact ⟨hframe, fun x _ => by rw [hmem], q, hq, hregs⟩
  · obtain ⟨h, -⟩ | ⟨-, h, -⟩ := resolve_ok hloc <;> cases h
  · obtain ⟨h, -⟩ | ⟨-, h, hfits⟩ := resolve_ok hloc <;> cases h
    rw [hmem]
    exact ⟨hframe, memWrite_bytesOutsideKept hm x hfits, q, hq, hregs⟩

/-- In a coherent state a command in flight is coherent. -/
theorem coherent_inflight {s : State} (hs : s.coherent = true) {v : Nat} {p : VP} (hp : s.vps[v]? = some p)
    {f : InFlight} (hf : p.inflight = some f) :
    p.fault = .none ∧ p.seq = f.phase.seq ∧ f.coherent p.flags = true ∧ f.onPath s.host = true := by
  obtain ⟨-, -, hall, -⟩ := State.coherent_iff.1 hs
  exact (VP.coherent_iff_of_inflight hf).1 (hall p (List.mem_of_getElem? hp))

/-- A step of a command in flight in a coherent state, as the new record, the new memory, and what is kept. -/
theorem stepVp_outcome {s t : State} (hs : s.coherent = true) {v : Nat} {p : VP} (hp : s.vps[v]? = some p)
    {f : InFlight} (hf : p.inflight = some f) (h : stepVp v s = .next t) :
    ∃ q, t.vps[v]? = some q ∧ MicroOutcome s.mem p f q t.mem ∧ t.vps = s.vps.set v q ∧ t.abort = s.abort ∧
      t.host = s.host ∧ t.port = s.port := by
  obtain ⟨-, -, hc, -⟩ := coherent_inflight hs hp hf
  obtain ⟨k, q, m, heq, hout⟩ := microStep_outcome s v hc
  obtain rfl : s.microStep v p f = t := Host.Outcome.next.inj ((stepVp_inflight hp hf).symm.trans h)
  rw [heq]
  refine ⟨q, ?_, hout, by simp, by simp, by simp, by simp⟩
  rw [State.commit_vps, State.choose_vps, List.getElem?_set_self (List.getElem?_eq_some_iff.1 hp).1]

/-- A step of a command in flight keeps the flags that its family does not write. -/
theorem MicroOutcome.keepsFlags {m m' : Memory} {p q : VP} {f : InFlight} (h : MicroOutcome m p f q m') :
    KeepsFlags f.family p.flags q.flags := by
  obtain hflags | ⟨x, hflags⟩ := h.flags <;> rw [hflags]
  · exact keepsFlags_refl ..
  · exact keepsFlags_specOf ..

/-- Settles O35: the frame of each outcome of a step. -/
theorem inFlightStepFrame : Obligations.InFlightStepFrame := by
  intro s t v p f hs hp hf hstep
  obtain ⟨-, hm, -, -⟩ := State.coherent_iff.1 hs
  obtain ⟨-, -, hc, -⟩ := coherent_inflight hs hp hf
  obtain ⟨q, hq, hout, hvps, habort, hhost, hport⟩ := stepVp_outcome hs hp hf hstep
  exact ⟨commonFrame_of_set hp hvps hhost hport hout.cmds hout.keepsFlags, hout.bytesOutsideKept hm hc, habort, q,
    hq, hout.regs⟩

end Sys2Proof.Machine
end

section
/-! The schedule (R12), the step of the machine around `exec` (R33, R80, R89), the end of a run (R245), and run to
completion (R70, R132). -/

namespace Sys2Proof.Machine

open Sys2Proof.Claims

/-! The schedule -/

/-- The number drawn names the virtual processor in the list of the enabled ones. -/
theorem nextVp_of_choose {s s' : State} {c v : Nat} (hchoose : s.choose s.enabled.length = (c, s'))
    (hv : s.enabled[c]? = some v) : s.nextVp = some (v, s') := by
  unfold State.nextVp
  cases hen : s.enabled with
  | nil => simp [hen] at hv
  | cons u rest =>
    rw [hen] at hchoose hv
    simp only [hchoose, List.getD_eq_getElem?_getD, hv, Option.getD_some]

/-- Each enabled virtual processor is chosen for some written choice (R12; log 5). -/
theorem nextVp_written {s : State} {v : Nat} (h : v ∈ s.enabled) :
    ∃ c s', State.nextVp { s with script := [c] } = some (v, s') := by
  obtain ⟨c, hc⟩ := List.mem_iff_getElem?.1 h
  have hlt := (List.getElem?_eq_some_iff.1 hc).1
  by_cases hone : s.enabled.length = 1
  · obtain rfl : c = 0 := by omega
    refine ⟨0, { s with script := [0] }, nextVp_of_choose (c := 0) ?_ hc⟩
    change State.choose _ s.enabled.length = _
    rw [hone, State.choose_one]
  · exact ⟨c, { s with script := [] }, nextVp_of_choose (s.choose_written (by omega) hlt []) hc⟩

/-- The only virtual processor that can step is the only enabled one. -/
theorem enabled_of_quiet {s : State} {v : Nat} (h : v ∈ s.enabled) (hquiet : s.quiet v = true) : s.enabled = [v] := by
  have hnodup : s.enabled.Nodup := List.nodup_range.filter _
  have honly : ∀ u, u ∈ s.enabled ↔ u ∈ [v] := fun u => by
    rw [List.mem_singleton]
    exact ⟨fun hu => by simpa using List.all_eq_true.1 hquiet u hu, fun hu => hu ▸ h⟩
  exact List.perm_singleton.1 ((List.perm_ext_iff_of_nodup hnodup (List.nodup_singleton v)).2 honly)

/-- Settles O49: the one chosen is enabled, each enabled one has its number, and one alone is chosen without a draw. -/
theorem scheduleIsFree : Obligations.ScheduleIsFree := by
  intro s
  refine ⟨fun v s' hnext => ⟨nextVp_sameButChoices hnext, ?_⟩, fun v p hp hfault hwork => ?_,
    fun v p hp hfault hwork halone => ?_⟩
  · obtain ⟨p, hp, hcan⟩ := nextVp_canStep hnext
    exact ⟨p, hp, VP.canStep_iff.1 hcan⟩
  · exact nextVp_written (mem_enabled.2 ⟨p, hp, VP.canStep_iff.2 ⟨hfault, hwork⟩⟩)
  · have hen := enabled_of_quiet (mem_enabled.2 ⟨p, hp, VP.canStep_iff.2 ⟨hfault, hwork⟩⟩) (alone_iff_quiet.1 halone)
    refine nextVp_of_choose (c := 0) ?_ (by rw [hen]; rfl)
    rw [hen, List.length_singleton, State.choose_one]

/-! The step around `exec` -/

/-- Without abort a step is a step of the virtual processor chosen (R12). -/
theorem step_of_nextVp {s s' : State} {v : Nat} (habort : s.abort = false) (hnext : s.nextVp = some (v, s')) :
    step s = stepVp v s' := by
  simp [step, habort, hnext]

section Command

variable {s : State} {v : Nat} {p : VP} {c : Command} {rest : List Command} (hp : s.vps[v]? = some p)
  (hnone : p.inflight = none) (hcmds : p.cmds = c :: rest)
include hp hnone hcmds

/-- With nothing in flight a step is the next command, handed to the block (R33, R80). -/
theorem stepVp_of_decode_ok {i : Instr} (hdecode : decode c.word = .ok i) :
    stepVp v s = exec i (s.present v p c rest) := by
  simp [stepVp, hp, hnone, hcmds, hdecode]

/-- A reserved encoding raises its trap (R89). -/
theorem stepVp_of_decode_error {code : IllegalCode} (hdecode : decode c.word = .error code) :
    stepVp v s = .next ((s.present v p c rest).raiseIllegal v { p with cmds := rest } code) := by
  simp [stepVp, hp, hnone, hcmds, hdecode]

end Command

/-- Settles O47: the step of the virtual processor chosen is its next command. -/
theorem stepRunsTheDecodedInstruction : Obligations.StepRunsTheDecodedInstruction := by
  intro s s' v p c rest i habort hnext hp hnone hcmds hdecode
  rw [step_of_nextVp habort hnext, stepVp_of_decode_ok hp hnone hcmds hdecode]
  rfl

/-- Settles O48: the decoder answers the code of the table of R89, and the trap is raised for it. -/
theorem stepTrapsOnReservedEncoding : Obligations.StepTrapsOnReservedEncoding := by
  intro s s' v p c rest code habort hnext hp hnone hcmds hcode
  obtain ⟨herror, -⟩ := reservedEncodingsDecodeToTheirCode c.word
  rw [step_of_nextVp habort hnext, stepVp_of_decode_error hp hnone hcmds ((herror code).2 hcode)]
  simp [State.raiseIllegal, State.present, State.setVp, illegalTaken]

/-! The end of a run -/

/-- A command handed to a ready virtual processor answers a next state, or its payload is refused (R51, R84). -/
theorem execute_of_ready {s : State} {p : VP} (ready : Ready s p) (f : Family) (w : Width) (lock isreg : Bool) :
    (∃ t, execute f w lock isreg s = .next t) ∨ execute f w lock isreg s = .refused .payloadOutsideContract ∨
      execute f w lock isreg s = .refused .operandWraps := by
  by_cases hlock : w = .w16 ∧ lock = true
  · obtain ⟨rfl, rfl⟩ := hlock
    exact .inl ⟨_, execute_lock_w16 ready f isreg⟩
  cases hok : s.port.payload.resOk with
  | false => exact .inl ⟨_, execute_of_not_resOk ready f isreg hlock hok⟩
  | true =>
    cases hloc : resolve w isreg s.port.payload.locRef with
    | ok loc => exact .inl ⟨_, execute_of_resolve ready f hlock hok hloc⟩
    | error why =>
      rw [execute_of_resolve_error ready f hlock hok hloc]
      cases isreg with
      | false =>
        rw [resolve_memory] at hloc
        split_ifs at hloc
        cases hloc
        exact .inr (.inr rfl)
      | true =>
        rw [resolve_reg] at hloc
        split_ifs at hloc
        cases hloc
        exact .inr (.inl rfl)

/-- The virtual processor that takes a command off its list, with nothing else in the way, is ready for it. -/
theorem ready_present {s : State} {v : Nat} {p : VP} (hp : s.vps[v]? = some p) (habort : s.abort = false)
    (hfault : p.fault = .none) (hseq : p.seq = .idle) (c : Command) (rest : List Command) :
    Ready (s.present v p c rest) { p with cmds := rest } :=
  ⟨List.getElem?_set_self (List.getElem?_eq_some_iff.1 hp).1, habort, hfault, hseq⟩

/-- A coherent virtual processor that can step takes its step, or its payload is refused. -/
theorem stepVp_of_canStep {s : State} (hs : s.coherent = true) (habort : s.abort = false) {v : Nat} {p : VP}
    (hp : s.vps[v]? = some p) (hcan : p.canStep = true) :
    (∃ t, stepVp v s = .next t) ∨ stepVp v s = .refused .payloadOutsideContract ∨
      stepVp v s = .refused .operandWraps := by
  obtain ⟨-, -, hall, -⟩ := State.coherent_iff.1 hs
  obtain ⟨hfault, hwork⟩ := VP.canStep_iff.1 hcan
  cases hf : p.inflight with
  | some f => exact .inl ⟨_, stepVp_inflight hp hf⟩
  | none =>
    have hseq := VP.coherent_idle (hall p (List.mem_of_getElem? hp)) hfault hf
    obtain ⟨c, rest, hcmds⟩ := List.exists_cons_of_ne_nil (hwork.resolve_left fun h => h hf)
    cases hdecode : decode c.word with
    | error code => exact .inl ⟨_, stepVp_of_decode_error hp hf hcmds hdecode⟩
    | ok i =>
      rw [stepVp_of_decode_ok hp hf hcmds hdecode, exec_eq_execute]
      exact execute_of_ready (ready_present hp habort hfault hseq c rest) ..

/-- A coherent virtual processor is done, as the end of a run asks (R245), exactly when it has no step to take. -/
theorem VP.done_iff {p : VP} {h : HostCaps} (hc : p.coherent h = true) :
    (p.fault != .none || (p.cmds.isEmpty && p.seq == .idle)) = true ↔ ¬p.canStep = true := by
  by_cases hfault : p.fault = .none
  · have hidle : p.seq = .idle ↔ p.inflight = none := ⟨VP.inflight_none_of_idle hc, VP.coherent_idle hc hfault⟩
    simp [VP.canStep_iff, hfault, hidle, and_comm]
  · simp [VP.canStep_iff, hfault]

/-- A run has ended exactly when the abort latch is set or no virtual processor can step. -/
theorem State.ended_iff {s : State} (hs : s.coherent = true) :
    s.ended = true ↔ s.abort = true ∨ ∀ p ∈ s.vps, ¬p.canStep = true := by
  obtain ⟨-, -, hall, -⟩ := State.coherent_iff.1 hs
  simp only [State.ended, Bool.or_eq_true_iff, List.all_eq_true]
  exact or_congr_right (forall₂_congr fun p hp => by simpa using VP.done_iff (hall p hp))

/-- With no virtual processor to step the run is at its end (R245). -/
theorem step_of_none_canStep {s : State} (habort : s.abort = false) (h : ∀ p ∈ s.vps, ¬p.canStep = true) :
    step s = .fault .runEnded := by
  have hen : s.enabled = [] := by
    refine List.eq_nil_iff_forall_not_mem.2 fun v hv => ?_
    obtain ⟨p, hp, hcan⟩ := mem_enabled.1 hv
    exact h p (List.mem_of_getElem? hp) hcan
  simp [step, habort, State.nextVp, hen]

/-- While a virtual processor can step, the machine takes a step or refuses a payload. -/
theorem step_of_canStep {s : State} (hs : s.coherent = true) (habort : s.abort = false) {p : VP} (hp : p ∈ s.vps)
    (hcan : p.canStep = true) :
    (∃ t, step s = .next t) ∨ step s = .refused .payloadOutsideContract ∨ step s = .refused .operandWraps := by
  obtain ⟨v, hv⟩ := List.mem_iff_getElem?.1 hp
  have hpos : 0 < s.enabled.length := List.length_pos_of_mem (mem_enabled.2 ⟨p, hv, hcan⟩)
  have hnext := nextVp_of_choose (s := s) rfl (List.getElem?_eq_getElem (s.choose_lt hpos))
  obtain ⟨q, hq, hqcan⟩ := nextVp_canStep hnext
  have hsame := nextVp_sameButChoices hnext
  have ⟨hvps, _, habort', _⟩ := hsame
  rw [step_of_nextVp habort hnext]
  exact stepVp_of_canStep (coherent_of_sameButChoices hsame hs) (habort'.trans habort) (by rw [hvps, hq]) hqcan

/-- Settles O50: with the latch set, with nobody to step, and with somebody to step. -/
theorem runHasEndedExactlyWhenAbortedOrRunEnded : Obligations.RunHasEndedExactlyWhenAbortedOrRunEnded := by
  intro s hs
  have hgo : s.ended = false → (∃ t, step s = .next t) ∨ step s = .refused .payloadOutsideContract ∨
      step s = .refused .operandWraps := fun hended => by
    have hnot := (State.ended_iff hs).not.1 (by simp [hended])
    push Not at hnot
    obtain ⟨habort, p, hp, hcan⟩ := hnot
    exact step_of_canStep hs (by simpa using habort) hp hcan
  refine ⟨⟨fun hended => ?_, fun hstop => ?_⟩, fun hdone habort => ?_, hgo⟩
  · by_cases habort : s.abort = true
    · exact .inl (if_pos habort)
    · exact .inr (step_of_none_canStep (by simpa using habort) (((State.ended_iff hs).1 hended).resolve_left habort))
  · by_contra hended
    obtain ⟨t, h⟩ | h | h := hgo (by simpa using hended) <;> rw [h] at hstop <;> simp at hstop
  · refine step_of_none_canStep habort fun p hp hcan => ?_
    obtain ⟨hfault, hwork⟩ := VP.canStep_iff.1 hcan
    have := hdone p hp
    tauto

/-! The placing of a word -/

/-- The record that `placeCommand` gives virtual processor 0 (log 13). -/
def VP.placed (p : VP) (c : Command) : VP :=
  { p with fault := .none, seq := .idle, inflight := none, cmds := c :: p.cmds }

/-- Virtual processor 0 is the first of the enabled ones after a command was placed for it. -/
theorem enabled_head {s : State} {p : VP} {others : List VP} (hvps : s.vps = p :: others) (hcan : p.canStep = true) :
    s.enabled[0]? = some 0 := by
  have hcan0 : s.canStep 0 = true := by simp [State.canStep, hvps, hcan]
  rw [State.enabled, hvps, List.length_cons, List.range_succ_eq_map, List.filter_cons_of_pos hcan0]
  rfl

/-- After the placing, the schedule chooses virtual processor 0. -/
theorem nextVp_placeFirst {s : State} {p : VP} {others : List VP} (hvps : s.vps = p :: others) (c : Command) :
    ∃ s', (s.placeFirst c).nextVp = some (0, s') ∧ s'.vps = p.placed c :: others ∧ s'.abort = false ∧
      s'.mem = s.mem ∧ s'.host = s.host := by
  let t : State := { s with abort := false, vps := placeCommand c s.vps }
  have htvps : t.vps = p.placed c :: others := by simp only [t, hvps]; rfl
  have hhead : t.enabled[0]? = some 0 := enabled_head htvps (by simp [VP.canStep_iff, VP.placed])
  have hpos : 0 < t.enabled.length := (List.getElem?_eq_some_iff.1 hhead).1
  by_cases hone : t.enabled.length ≤ 1
  · have hplace : s.placeFirst c = t := if_pos hone
    refine ⟨t, ?_, htvps, rfl, rfl, rfl⟩
    rw [hplace]
    refine nextVp_of_choose ?_ hhead
    rw [show t.enabled.length = 1 by omega, State.choose_one]
  · have hplace : s.placeFirst c = { t with script := 0 :: t.script } := if_neg hone
    refine ⟨{ t with script := t.script }, ?_, htvps, rfl, rfl, rfl⟩
    rw [hplace]
    exact nextVp_of_choose (t.choose_written (by omega) hpos t.script) hhead

/-- Settles O51: the schedule chooses virtual processor 0, whose next command is the word placed. -/
theorem placedWordIsExecutedNext : Obligations.PlacedWordIsExecutedNext := by
  intro s p others w i hvps hdecode
  have hcommand : tableCommand 16 w.toNat = ⟨w, ⟨true, 0⟩⟩ := by
    simp [tableCommand, Nat.mod_eq_of_lt w.isLt]
  obtain ⟨s', hnext, hvps', habort, hmem, hhost⟩ := nextVp_placeFirst hvps ⟨w, ⟨true, 0⟩⟩
  have habort₀ : (s.placeFirst ⟨w, ⟨true, 0⟩⟩).abort = false := by
    obtain ⟨-, -, h, -⟩ := nextVp_sameButChoices hnext
    exact h.symm.trans habort
  have hp : s'.vps[0]? = some (p.placed ⟨w, ⟨true, 0⟩⟩) := by rw [hvps']; rfl
  refine ⟨s'.present 0 (p.placed ⟨w, ⟨true, 0⟩⟩) ⟨w, ⟨true, 0⟩⟩ p.cmds, ?_,
    ready_present hp habort rfl rfl _ p.cmds, rfl, hmem, hhost, ?_⟩
  · rw [State.withFetchWord, hcommand, step_of_nextVp habort₀ hnext, stepVp_of_decode_ok hp rfl rfl hdecode]
  · simp [State.present, State.setVp, hvps']

/-! Run to completion -/

/-- The accesses that a plain command has to make go down by one with each step (R56, R244). -/
theorem MicroOutcome.accessesLeft_step {m m' : Memory} {p q : VP} {f : InFlight} (h : MicroOutcome m p f q m')
    (hseq : f.phase.seq = .directRmw) :
    (accessesLeft f = 1 ∧ q.inflight = none) ∨
      ∃ f', q.inflight = some f' ∧ q.seq = p.seq ∧ accessesLeft f' + 1 = accessesLeft f := by
  cases h with
  | readMore hph hlen hk =>
    refine .inr ⟨_, rfl, rfl, ?_⟩
    simp only [accessesLeft, hph, List.length_eraseIdx_of_lt (List.getElem?_eq_some_iff.1 hk).1]
    omega
  | readLast hph =>
    refine .inr ⟨_, rfl, rfl, ?_⟩
    simp only [accessesLeft, hph, List.length_map, List.length_range, List.length_singleton]
    omega
  | writeMore hph hlen hk =>
    refine .inr ⟨_, rfl, rfl, ?_⟩
    simp only [accessesLeft, hph, List.length_eraseIdx_of_lt (List.getElem?_eq_some_iff.1 hk).1]
    omega
  | writeLast hph => exact .inl ⟨by simp only [accessesLeft, hph, List.length_singleton], rfl⟩
  | casRead hph | swapOk hph | swapFail hph =>
    rw [hph] at hseq
    cases hseq

/-- Settles O37: a command in flight keeps its virtual processor enabled, and each outcome of its step is an end or goes
on. -/
theorem commandInFlightIsNeverStuck : Obligations.CommandInFlightIsNeverStuck := by
  intro s v p f hs habort hp hf
  obtain ⟨hfault, hseq, -, -⟩ := coherent_inflight hs hp hf
  have hcan : p.canStep = true := VP.canStep_iff.2 ⟨hfault, .inl (by simp [hf])⟩
  have hstep := stepVp_inflight hp hf
  obtain ⟨q, hq, hout, -⟩ := stepVp_outcome hs hp hf hstep
  refine ⟨nextVp_written (mem_enabled.2 ⟨p, hp, hcan⟩), _, q, hstep, hq, fun hdirect => ?_, fun hcas => ?_⟩
  · obtain hlast | ⟨f', hf', hsame, hleft⟩ := hout.accessesLeft_step (hseq.symm.trans hdirect)
    · exact .inl hlast
    · exact .inr ⟨f', hf', hsame.trans hdirect, hleft⟩
  · obtain ⟨-, hnone⟩ | ⟨hsame, -⟩ := hout.inflight
    · exact .inl hnone
    · exact .inr (hsame.trans hcas)

/-- Settles O38: a step of another virtual processor leaves this one, and its own step is the command's next. -/
theorem commandRunsToCompletion : Obligations.CommandRunsToCompletion := by
  refine ⟨fun s t v p f hp hf hstep => ?_, fun i s p f hs habort hp hf => ?_⟩
  · obtain ⟨-, u, s', hnext, r, hr, hcases⟩ := step_cases hstep
    obtain ⟨hvps', -⟩ := nextVp_sameButChoices hnext
    by_cases huv : u = v
    · subst huv
      rw [hvps', hp] at hr
      cases hr
      obtain ⟨f', hf', rfl⟩ | ⟨c, rest, code, hnone, -⟩ | ⟨c, rest, i, hnone, -⟩ := hcases
      · cases Option.some.inj (hf.symm.trans hf')
        obtain ⟨q, hq, hregs, hcmds, hfault, hend, -⟩ := microStep_frame s' u p f
        have hlt : u < s'.vps.length := hvps' ▸ (List.getElem?_eq_some_iff.1 hp).1
        refine .inr ⟨q, by rw [hq, List.getElem?_set_self hlt], hcmds, hfault, hregs, ?_⟩
        obtain ⟨hseq, ph, hph⟩ | ⟨hseq, hnone⟩ := hend
        · exact .inr ⟨ph, hph, hseq⟩
        · exact .inl ⟨hnone, hseq⟩
      · rw [hf] at hnone
        cases hnone
      · rw [hf] at hnone
        cases hnone
    · left
      have hkeep (q : VP) : (s'.vps.set u q)[v]? = some p := by rw [List.getElem?_set_ne huv, hvps', hp]
      obtain ⟨f', -, rfl⟩ | ⟨c, rest, code, -, -, -, rfl⟩ | ⟨c, rest, i, -, -, -, hexec⟩ := hcases
      · obtain ⟨q, hq, -⟩ := microStep_frame s' u r f'
        rw [hq, hkeep]
      · rw [State.raiseIllegal_vps, List.getElem?_set_ne huv]
        exact hkeep _
      · obtain ⟨q, hq, -⟩ := exec_vps hexec
        have hq : t.vps = (s'.present u r c rest).vps.set u q := hq
        rw [hq, List.getElem?_set_ne huv]
        exact hkeep _
  · obtain ⟨hfault, hseq, -, -⟩ := coherent_inflight hs hp hf
    rw [exec_eq_execute, execute_of_busy hp _ _ _ _ habort hfault]
    rw [hseq]
    exact f.phase.seq_ne_idle

end Sys2Proof.Machine
end

section
/-! Memory commands step by step where another virtual processor can step in between (R56, R121, R122, R244), and what
undisturbed steps come to (R133). -/

namespace Sys2Proof.Machine

open Sys2Proof.Claims

/-- A written choice in range is the one taken (R12, R56; log 5). -/
theorem choose_of_script {s : State} {c k : Nat} {rest : List Nat} (h : s.script = c :: rest) (hk : 1 < k)
    (hc : c < k) :
    s.choose k = (c, { s with script := rest }) := by
  have hwritten := s.choose_written hk hc rest
  rw [← h] at hwritten
  exact hwritten

/-! The first step of a contended command -/

section FirstStep

variable {s : State} {p : VP} {a : Addr} {w : Width} {lock : Bool} (ready : Ready s p) (hat : AtMem s a)
  (hfits : a.toNat + w.bytes ≤ 2 ^ 64) (hcontended : ¬Alone s s.port.vp)
include ready hat hfits hcontended

/-- A plain memory command begins with the first of its byte reads (R119, R120, R121). -/
theorem execute_plain_contended (hplain : ¬(lock = true ∧ (w = .w16 ∨ a.toNat % w.bytes = 0))) (f : Family) :
    execute f w lock false s =
      .next (s.microStep s.port.vp (p.begin (.plainStart f w a lock)) (.plainStart f w a lock)) := by
  have hquiet : s.quiet s.port.vp = false := by simpa using alone_iff_quiet.not.1 hcontended
  rw [execute_atMem ready hat hfits (by tauto), ← runPlain_mem_of_contended hquiet]
  cases lock with
  | false => rw [runResolved_unlocked]
  | true => rw [runResolved_locked_mem, if_pos (by tauto)]

/-- A locked aligned command begins with its atomic read (R119, R122). -/
theorem execute_atomic_contended (hwidth : w ≠ .w16) (haligned : a.toNat % w.bytes = 0)
    (hcas : s.host.hasCas w = true) (f : Family) :
    execute f w true false s =
      .next (s.microStep s.port.vp (p.begin (.atomicStart f w a true)) (.atomicStart f w a true)) := by
  have hquiet : s.quiet s.port.vp = false := by simpa using alone_iff_quiet.not.1 hcontended
  rw [execute_atMem ready hat hfits (fun h => hwidth h.1), ← runAtomic_of_contended hquiet, runResolved_locked_mem,
    if_neg (not_not.2 haligned), if_pos hcas]

end FirstStep

/-- The one byte of a byte operand is its value (R53). -/
theorem bytesValue_singleton (b : Byte) : bytesValue 8 [(0, b)] = b := by
  simp [bytesValue]

/-- A contended byte command begins with its one read, which gives its result and flags (R121; log 15). -/
theorem microStep_plainStart_w8 (s : State) (v : Nat) (p : VP) (f : Family) (a : Addr) (lock : Bool) :
    s.microStep v (p.begin (.plainStart f .w8 a lock)) (.plainStart f .w8 a lock) =
      let d := specOf f 8 (s.mem.read (byteAddr a 0)) p.flags
      s.setVp v { p with
        flags := d.2
        seq := .directRmw
        inflight := some ⟨f, .w8, a, lock, .writing [(0, d.1)]⟩ } := by
  have hresult (d : BitVec 8) : (List.range 1).map (fun j => (j, byteOf d j)) = [(0, d)] := by
    simp [List.range_succ, byteOf]
  rw [microStep_read_last rfl]
  change (let d := specOf f 8 (bytesValue 8 [(0, s.mem.read (byteAddr a 0))]) p.flags
    s.setVp v (VP.inPhase { p.begin (.plainStart f .w8 a lock) with flags := d.2 } (.plainStart f .w8 a lock)
      (.writing ((List.range 1).map fun j => (j, byteOf d.1 j))))) = _
  rw [bytesValue_singleton]
  simp only [hresult]
  rfl

/-- Settles O39: the first of the byte reads, of several bytes and of one. -/
theorem contendedPlainCommandReadsOneByte : Obligations.ContendedPlainCommandReadsOneByte := by
  intro i s p a hisreg ready hat hfits hcontended hplain
  refine ⟨fun k rest hwidth hscript hk => ?_, fun hwidth => ?_⟩
  · have hlen : 1 < (List.range i.width.bytes).length := by
      rw [List.length_range]
      cases hw : i.width with
      | w8 => exact absurd hw hwidth
      | w16 | w32 | w64 => decide
    have hchoose := choose_of_script hscript hlen (by simpa using hk)
    rw [exec_eq_execute, hisreg, execute_plain_contended ready hat hfits hcontended hplain,
      microStep_read_more rfl hlen hchoose (List.getElem?_range hk), ← byteAddr_eq hfits hk]
    rfl
  · rw [hwidth] at hfits hplain
    have hbyte : byteAddr a 0 = a.toNat := byteAddr_eq hfits (by decide)
    rw [exec_eq_execute, hisreg, hwidth, execute_plain_contended ready hat hfits hcontended hplain,
      microStep_plainStart_w8, hbyte]
    rfl

/-! The later steps of a command in flight -/

/-- Settles O40: a byte read of several, and the last one, whose value has every byte as it was read. -/
theorem plainReadStepReadsOneByte : Obligations.PlainReadStepReadsOneByte := by
  intro s v p f todo got hs hp hf hph
  obtain ⟨-, -, hc, -⟩ := coherent_inflight hs hp hf
  obtain ⟨hfits, -, hperm⟩ := (InFlight.coherent_reading_iff hph).1 hc
  have hin : ∀ k ∈ todo, k < f.width.bytes := fun k hk =>
    List.mem_range.1 (hperm.subset (List.mem_append_left _ hk))
  refine ⟨fun c k rest hlen hk hscript => ?_, ?_⟩
  · have hlt := hin k (List.mem_of_getElem? hk)
    have hchoose := choose_of_script hscript hlen (List.getElem?_eq_some_iff.1 hk).1
    refine ⟨hlt, ?_⟩
    rw [stepVp_inflight hp hf, microStep_read_more hph hlen hchoose hk, byteAddr_eq hfits hlt]
    rfl
  · rintro k rfl
    have hlt := hin k (List.mem_singleton_self k)
    rw [← byteAddr_eq hfits hlt]
    refine ⟨hlt, hperm, bytesValue f.width.bits ((k, s.mem.read (byteAddr f.addr k)) :: got),
      fun jb hjb => byteOf_bytesValue (got := (k, _) :: got) hperm hjb, ?_⟩
    rw [stepVp_inflight hp hf, microStep_read_last hph]
    rfl

/-- Settles O41: a byte write of several, and the last one. -/
theorem plainWriteStepWritesOneByte : Obligations.PlainWriteStepWritesOneByte := by
  intro s v p f todo hs hp hf hph
  obtain ⟨-, -, hc, -⟩ := coherent_inflight hs hp hf
  obtain ⟨hfits, -, hin, -⟩ := (InFlight.coherent_writing_iff hph).1 hc
  refine ⟨fun c kb rest hlen hk hscript => ?_, ?_⟩
  · have hlt := hin kb (List.mem_of_getElem? hk)
    have hchoose := choose_of_script hscript hlen (List.getElem?_eq_some_iff.1 hk).1
    refine ⟨hlt, ?_⟩
    rw [stepVp_inflight hp hf, microStep_write_more hph hlen hchoose hk, byteAddr_eq hfits hlt]
    rfl
  · rintro kb rfl
    have hlt := hin kb (List.mem_singleton_self kb)
    refine ⟨hlt, ?_⟩
    rw [stepVp_inflight hp hf, microStep_write_last hph, byteAddr_eq hfits hlt]
    rfl

/-- Settles O42: the atomic read, from the command's entry into its path. -/
theorem contendedLockedCommandReadsAtomically : Obligations.ContendedLockedCommandReadsAtomically := by
  intro i s p a hisreg hlock hwidth ready hat hfits hcontended haligned hcas
  rw [exec_eq_execute, hisreg, hlock, execute_atomic_contended ready hat hfits hcontended hwidth haligned hcas,
    microStep_casRead rfl]
  rfl

/-- Settles O43: the swap that finds the value observed, and the one that does not. -/
theorem swapCommitsOnceFromTheWinningCandidate : Obligations.SwapCommitsOnceFromTheWinningCandidate := by
  intro s v p f old cand lf hs hp hf hph
  obtain ⟨-, -, hc, -⟩ := coherent_inflight hs hp hf
  refine ⟨fun heq => ?_, fun hne => ?_⟩
  · rw [stepVp_inflight hp hf, microStep_swap_ok hc hph heq]
    rfl
  · rw [stepVp_inflight hp hf, microStep_swap_fail hc hph hne]
    rfl

/-! A locked command alone -/

/-- A record that was at rest, whose command has begun and ended. -/
theorem VP.begin_endCommand {p : VP} (hseq : p.seq = .idle) (hnone : p.inflight = none) (f : InFlight) (fl : Flags) :
    ({ p.begin f with flags := fl } : VP).endCommand = { p with flags := fl } := by
  simp [VP.endCommand, VP.begin, hseq, hnone]

/-- After an atomic read that nothing followed, the cell still holds the value observed, so that the swap commits. -/
theorem stepVp_after_casRead {s : State} {v : Nat} {p : VP} {f : InFlight} (hv : v < s.vps.length)
    (hph : f.phase = .casRead) (hc : f.coherent p.flags = true) :
    stepVp v (s.microStep v p f) =
      let d := specOf f.family f.width.bits (memRead s.mem f.addr f.width.bytes) p.flags
      .next (s.commit v ({ p with flags := d.2 } : VP).endCommand (memWrite s.mem f.addr d.1 f.width.bytes)) := by
  have hswap := MicroOutcome.phase_coherent (m := s.mem) (.casRead hph rfl) hc rfl
  rw [microStep_casRead hph]
  refine (stepVp_inflight (List.getElem?_set_self hv) rfl).trans (congrArg Host.Outcome.next ?_)
  refine (microStep_swap_ok (s := s.setVp v _) hswap rfl rfl).trans ?_
  simp only [State.commit, State.setVp, List.set_set]
  rfl

/-- Settles O45: the atomic read, and the first swap after it. -/
theorem lockedCommandAloneTakesOneIteration : Obligations.LockedCommandAloneTakesOneIteration := by
  intro i s p a hisreg hlock hwidth ready hnone hat hfits hcontended haligned hcas
  have ⟨hp, _, _, hseq⟩ := ready
  rw [exec_eq_execute, hisreg, hlock, execute_atomic_contended ready hat hfits hcontended hwidth haligned hcas]
  refine ⟨_, rfl, ?_⟩
  rw [stepVp_after_casRead (List.getElem?_eq_some_iff.1 hp).1 rfl (InFlight.atomicStart_coherent hfits ..)]
  simp only [VP.begin_endCommand hseq hnone]
  rfl

/-! A plain command alone -/

/-- A plain command in flight that nothing disturbs is on its way to the memory `G` and the flags `fl` of the whole
read-modify-write: what it has read is still there, or what it has yet to write is all that memory lacks. -/
def OnTrack (G : Memory) (fl : Flags) (f : InFlight) (q : VP) (m : Memory) : Prop :=
  match f.phase with
  | .reading _ got =>
    (∀ jb ∈ got, jb.2 = m.read (byteAddr f.addr jb.1)) ∧
      let d := specOf f.family f.width.bits (memRead m f.addr f.width.bytes) q.flags
      fl = d.2 ∧ G = memWrite m f.addr d.1 f.width.bytes
  | .writing todo =>
    q.flags = fl ∧ (∀ kb ∈ todo, G.read (byteAddr f.addr kb.1) = kb.2) ∧
      ∀ x, (∀ kb ∈ todo, x ≠ byteAddr f.addr kb.1) → m.read x = G.read x
  | .casRead | .casSwap _ _ _ => False

section OnTrack

variable {G m : Memory} {fl : Flags} {f : InFlight} {q : VP}

theorem onTrack_reading {todo : List Nat} {got : List (Nat × Byte)} (hph : f.phase = .reading todo got) :
    OnTrack G fl f q m ↔ (∀ jb ∈ got, jb.2 = m.read (byteAddr f.addr jb.1)) ∧
      fl = (specOf f.family f.width.bits (memRead m f.addr f.width.bytes) q.flags).2 ∧
      G = memWrite m f.addr (specOf f.family f.width.bits (memRead m f.addr f.width.bytes) q.flags).1
        f.width.bytes := by
  simp only [OnTrack, hph]

theorem onTrack_writing {todo : List (Nat × Byte)} (hph : f.phase = .writing todo) :
    OnTrack G fl f q m ↔ q.flags = fl ∧ (∀ kb ∈ todo, G.read (byteAddr f.addr kb.1) = kb.2) ∧
      ∀ x, (∀ kb ∈ todo, x ≠ byteAddr f.addr kb.1) → m.read x = G.read x := by
  simp only [OnTrack, hph]

theorem onTrack_seq (h : OnTrack G fl f q m) : f.phase.seq = .directRmw := by
  unfold OnTrack at h
  split at h
  next hph => rw [hph]; rfl
  next hph => rw [hph]; rfl
  all_goals exact h.elim

/-- After a byte write memory lacks what it lacked before, but for that byte. -/
theorem read_after_write {todo : List (Nat × Byte)} {c : Nat} {kb : Nat × Byte} (hm : m.wf = true)
    (hk : todo[c]? = some kb) (hG : ∀ kb ∈ todo, G.read (byteAddr f.addr kb.1) = kb.2)
    (hrest : ∀ x, (∀ kb ∈ todo, x ≠ byteAddr f.addr kb.1) → m.read x = G.read x) {x : Nat}
    (hx : ∀ kb ∈ todo.eraseIdx c, x ≠ byteAddr f.addr kb.1) :
    (m.write (byteAddr f.addr kb.1) kb.2).read x = G.read x := by
  by_cases hsame : x = byteAddr f.addr kb.1
  · rw [hsame, Memory.read_write_same hm, hG kb (List.mem_of_getElem? hk)]
  · rw [Memory.read_write_other hm hsame]
    refine hrest x fun jb hjb => ?_
    obtain ⟨hlt, rfl⟩ := List.getElem?_eq_some_iff.1 hk
    obtain rfl | hmem := List.mem_cons.1 ((List.getElem_cons_eraseIdx_perm hlt).mem_iff.2 hjb)
    · exact hsame
    · exact hx jb hmem

/-- A step of a command on its way keeps it there, or ends it with the memory and the flags it was on the way to. -/
theorem onTrack_step {m' : Memory} {q' : VP} (h : OnTrack G fl f q m) (hc : f.coherent q.flags = true)
    (hm : m.wf = true) (hG : G.wf = true) (hout : MicroOutcome m q f q' m') :
    (q'.inflight = none → q' = ({ q with flags := fl } : VP).endCommand ∧ m' = G) ∧
      ∀ f', q'.inflight = some f' → OnTrack G fl f' q' m' ∧
        ({ q' with flags := fl } : VP).endCommand = ({ q with flags := fl } : VP).endCommand := by
  have hfits := InFlight.fits hc
  cases hout with
  | readMore hph hlen hk =>
    obtain ⟨hgot, htarget⟩ := (onTrack_reading hph).1 h
    refine ⟨nofun, ?_⟩
    rintro f' ⟨⟩
    exact ⟨(onTrack_reading rfl).2 ⟨List.forall_mem_cons.2 ⟨rfl, hgot⟩, htarget⟩, rfl⟩
  | readLast hph hd =>
    obtain ⟨hgot, rfl, rfl⟩ := (onTrack_reading hph).1 h
    obtain ⟨-, -, hperm⟩ := (InFlight.coherent_reading_iff hph).1 hc
    rw [bytesValue_eq_memRead (got := (_, _) :: _) hperm (List.forall_mem_cons.2 ⟨rfl, hgot⟩)] at hd
    subst hd
    refine ⟨nofun, ?_⟩
    rintro f' ⟨⟩
    refine ⟨(onTrack_writing rfl).2 ⟨rfl, ?_, fun x hx => (read_memWrite_outside hm _ fun k hk => ?_).symm⟩, rfl⟩
    · simp only [List.forall_mem_map, List.mem_range]
      exact fun j hj => read_memWrite_inside hm _ hfits hj
    · simpa using hx (k, _) (List.mem_map_of_mem (List.mem_range.2 hk))
  | writeMore hph hlen hk =>
    obtain ⟨hflags, hGtodo, hrest⟩ := (onTrack_writing hph).1 h
    refine ⟨nofun, ?_⟩
    rintro f' ⟨⟩
    exact ⟨(onTrack_writing rfl).2 ⟨hflags, fun kb hkb => hGtodo kb (List.mem_of_mem_eraseIdx hkb),
      fun x hx => read_after_write hm hk hGtodo hrest hx⟩, rfl⟩
  | writeLast hph =>
    obtain ⟨rfl, hGtodo, hrest⟩ := (onTrack_writing hph).1 h
    refine ⟨fun _ => ⟨rfl, Memory.ext_of_wf (Memory.write_wf hm (byteAddr_lt _ _) _) hG fun x => ?_⟩, nofun⟩
    exact read_after_write (c := 0) hm rfl hGtodo hrest nofun
  | casRead hph | swapOk hph | swapFail hph =>
    have hseq := onTrack_seq h
    rw [hph] at hseq
    cases hseq

end OnTrack

/-- Equality but for the free choices after one more step, which replaces a record and memory. -/
theorem sameButChoices_of_commit {s u : State} {k v : Nat} {q x : VP} {m G : Memory}
    (h : SameButChoices
      { (s.choose k).2.commit v q m with mem := G, vps := ((s.choose k).2.commit v q m).vps.set v x } u) :
    SameButChoices { s with mem := G, vps := s.vps.set v x } u := by
  obtain ⟨hvps, hmem, habort, hhost, hport⟩ := h
  exact ⟨by simpa using hvps, hmem, by simpa using habort, by simpa using hhost, by simpa using hport⟩

/-- A plain command in flight that nothing disturbs ends, after the accesses it has left in whatever order, with the
memory and the flags it was on the way to (R133, R244). -/
theorem stepsOf_onTrack {G : Memory} (hG : G.wf = true) {fl : Flags} {v : Nat} (k : Nat) {s : State} {q : VP}
    {f : InFlight} (hq : s.vps[v]? = some q) (hf : q.inflight = some f) (hc : f.coherent q.flags = true)
    (hm : s.mem.wf = true) (htrack : OnTrack G fl f q s.mem) (hleft : accessesLeft f = k) :
    ∃ u, stepsOf v k s = .next u ∧
      SameButChoices { s with mem := G, vps := s.vps.set v ({ q with flags := fl } : VP).endCommand } u := by
  induction k generalizing s q f with
  | zero =>
    obtain ⟨-, _, _, -, hout⟩ := microStep_outcome s v hc
    obtain ⟨h, -⟩ | ⟨_, -, -, h⟩ := hout.accessesLeft_step (onTrack_seq htrack) <;> omega
  | succ k ih =>
    obtain ⟨n, q', m', hmicro, hout⟩ := microStep_outcome s v hc
    obtain ⟨hend, hgo⟩ := onTrack_step htrack hc hm hG hout
    rw [stepsOf, stepVp_inflight hq hf, hmicro]
    obtain ⟨hlast, hnone⟩ | ⟨f', hf', -, hless⟩ := hout.accessesLeft_step (onTrack_seq htrack)
    · obtain ⟨rfl, rfl⟩ := hend hnone
      obtain rfl : k = 0 := by omega
      exact ⟨_, rfl, by simp, by simp, by simp, by simp, by simp⟩
    · obtain ⟨htrack', hsame⟩ := hgo f' hf'
      have hq' : ((s.choose n).2.commit v q' m').vps[v]? = some q' := by
        rw [State.commit_vps, State.choose_vps, List.getElem?_set_self (List.getElem?_eq_some_iff.1 hq).1]
      obtain ⟨u, hu, hlike⟩ :=
        ih hq' hf' (hout.phase_coherent hc hf') (hout.mem_wf hm) htrack' (by omega)
      rw [hsame] at hlike
      exact ⟨u, hu, sameButChoices_of_commit hlike⟩

/-- Settles O44: the first byte read begins the command on its way, and its other steps end it. -/
theorem plainBytesInAnyOrderMakeTheWholeCommand : Obligations.PlainBytesInAnyOrderMakeTheWholeCommand := by
  intro i s p a hisreg hm ready hnone hat hfits hcontended hplain
  have ⟨hp, _, _, hseq⟩ := ready
  let start := InFlight.plainStart i.family i.width a i.lock
  let d := specOf i.family i.width.bits (memRead s.mem a i.width.bytes) p.flags
  have hc : start.coherent (p.begin start).flags = true := InFlight.plainStart_coherent hfits ..
  have htrack : OnTrack (memWrite s.mem a d.1 i.width.bytes) d.2 start (p.begin start) s.mem :=
    (onTrack_reading rfl).2 ⟨nofun, rfl, rfl⟩
  have hleft : accessesLeft start = 2 * i.width.bytes := by
    simp only [accessesLeft, start, InFlight.plainStart, List.length_range]
    omega
  obtain ⟨n, q, m, hmicro, hout⟩ := microStep_outcome s s.port.vp hc
  obtain ⟨-, hgo⟩ := onTrack_step htrack hc hm (memWrite_wf hm _ _ _) hout
  obtain ⟨hlast, -⟩ | ⟨f, hf, -, hless⟩ := hout.accessesLeft_step rfl
  · omega
  obtain ⟨htrack', hsame⟩ := hgo f hf
  have hq : ((s.choose n).2.commit s.port.vp q m).vps[s.port.vp]? = some q := by
    rw [State.commit_vps, State.choose_vps, List.getElem?_set_self (List.getElem?_eq_some_iff.1 hp).1]
  obtain ⟨u, hu, hlike⟩ := stepsOf_onTrack (memWrite_wf hm _ _ _) (2 * i.width.bytes - 1) hq hf
    (hout.phase_coherent hc hf) (hout.mem_wf hm) htrack' (by omega)
  rw [hsame, VP.begin_endCommand hseq hnone] at hlike
  refine ⟨_, u, ?_, hu, sameButChoices_of_commit hlike⟩
  rw [exec_eq_execute, hisreg, execute_plain_contended ready hat hfits hcontended hplain, hmicro]

end Sys2Proof.Machine
end

section
/-! The sequencer's transition table (R127) row by row. -/

namespace Sys2Proof.Machine

open Sys2Proof.Claims

/-! The table -/

/-- The first three transitions from `IDLE` are the checks of `Execute` in their order (R111, R128). -/
theorem three_transitions_eq_checks (w : Width) (lock isreg resOk aligned hostCas casOk : Bool) :
    let facts : CmdFacts := ⟨w, lock, isreg, resOk, aligned, hostCas⟩
    facts.next casOk (facts.next casOk (facts.next casOk .idle)) =
      if w = .w16 ∧ lock = true then .abort
      else if resOk = false then .unsupportedTrap
      else if lock = true ∧ isreg = true then .abort
      else if lock = true ∧ aligned = true then if hostCas = true then .atomicCasLoop else .unsupportedTrap
      else .directRmw := by
  by_cases hw : w = .w16 <;> cases lock <;> cases resOk <;> simp [CmdFacts.next, hw]

/-- A trap and an abort are never left. -/
theorem next_of_stuck (facts : CmdFacts) (casOk : Bool) {x : SeqState} (h : x = .unsupportedTrap ∨ x = .abort) :
    facts.next casOk x = x := by
  obtain rfl | rfl := h <;> rfl

/-! A command handed over -/

theorem eq_of_getElem?_set {l : List VP} {v : Nat} {x q : VP} (h : (l.set v x)[v]? = some q) : q = x := by
  have hv : v < l.length := by simpa using (List.getElem?_eq_some_iff.1 h).1
  rw [List.getElem?_set_self hv] at h
  exact (Option.some.inj h).symm

section Seq

variable {s : State} {v : Nat} {p q : VP} {f : Family} {w : Width} {lock : Bool}

/-- A command that makes its first access stays in flight in the state of its path. -/
theorem microStep_begin_seq {fl : InFlight} (hc : fl.coherent p.flags = true)
    (hstart : (∃ todo got, fl.phase = .reading todo got) ∨ fl.phase = .casRead)
    (hq : (s.microStep v (p.begin fl) fl).vps[v]? = some q) : q.seq = fl.phase.seq := by
  obtain ⟨k, q', m, hmicro, hout⟩ := microStep_outcome (p := p.begin fl) s v hc
  rw [hmicro, State.commit_vps] at hq
  rw [eq_of_getElem?_set hq]
  cases hout with
  | readMore | readLast | casRead => rfl
  | writeMore hph | writeLast hph | swapOk hph | swapFail hph =>
    rw [hph] at hstart
    obtain ⟨_, _, h⟩ | h := hstart <;> cases h

theorem runPlain_reg_seq {r : Fin 16} {off : Nat} (hseq : p.seq = .idle)
    (hq : (s.runPlain v p f w lock (.regLoc r off)).vps[v]? = some q) : q.seq = .idle := by
  rw [State.runPlain, directRmw_reg] at hq
  rw [eq_of_getElem?_set hq, VP.setReg_seq, hseq]

variable {a : Addr} (hfits : a.toNat + w.bytes ≤ 2 ^ 64)
include hfits

theorem runPlain_mem_seq (hseq : p.seq = .idle) (hq : (s.runPlain v p f w lock (.memLoc a)).vps[v]? = some q) :
    q.seq = if s.quiet v = true then .idle else .directRmw := by
  cases hquiet : s.quiet v with
  | true =>
    rw [runPlain_mem_of_quiet hquiet] at hq
    rw [eq_of_getElem?_set hq]
    exact hseq
  | false =>
    rw [runPlain_mem_of_contended hquiet] at hq
    exact microStep_begin_seq (InFlight.plainStart_coherent hfits ..) (.inl ⟨_, _, rfl⟩) hq

theorem runAtomic_seq (hseq : p.seq = .idle) (hq : (s.runAtomic v p f w true a).vps[v]? = some q) :
    q.seq = if s.quiet v = true then .idle else .atomicCasLoop := by
  cases hquiet : s.quiet v with
  | true =>
    rw [runAtomic_of_quiet hquiet] at hq
    rw [eq_of_getElem?_set hq]
    exact hseq
  | false =>
    rw [runAtomic_of_contended hquiet] at hq
    exact microStep_begin_seq (InFlight.atomicStart_coherent hfits ..) (.inr rfl) hq

end Seq

/-- Where a command handed over leaves the sequencer of its virtual processor, beside where the table's first three
transitions lead: in the trap or the abort, where a command that ends leads, or on its path. -/
theorem exec_seq {i : Instr} {s t : State} {p q : VP} (ready : Ready s p) (hexec : exec i s = .next t)
    (hq : t.vps[s.port.vp]? = some q) (casOk : Bool) :
    let facts : CmdFacts := ⟨i.width, i.lock, i.isreg, s.port.payload.resOk,
      decide (s.port.payload.locRef.toNat % i.width.bytes = 0), s.host.hasCas i.width⟩
    let reached := facts.next casOk (facts.next casOk (facts.next casOk .idle))
    ((reached = .unsupportedTrap ∨ reached = .abort) ∧ q.seq = reached) ∨
      ((reached = .directRmw ∨ reached = .atomicCasLoop) ∧
        q.seq = if i.isreg = true ∨ s.quiet s.port.vp = true then .idle else reached) := by
  have ⟨hp, _, _, hseq⟩ := ready
  intro facts reached
  have hreached := three_transitions_eq_checks i.width i.lock i.isreg s.port.payload.resOk
    (decide (s.port.payload.locRef.toNat % i.width.bytes = 0)) (s.host.hasCas i.width) casOk
  change reached = _ at hreached
  clear_value reached
  rw [exec_eq_execute] at hexec
  obtain ⟨p', hp', -, -, -, hcases⟩ := execute_cases hexec
  cases Option.some.inj (hp.symm.trans hp')
  obtain ⟨hwidth, hlock, rfl⟩ | ⟨hlock16, hfail, rfl⟩ | ⟨hlock16, hok, loc, hloc, rfl⟩ := hcases
  · rw [if_pos ⟨hwidth, hlock⟩] at hreached
    exact .inl ⟨.inr hreached, by rw [hreached, eq_of_getElem?_set hq]⟩
  · rw [if_neg hlock16, if_pos hfail] at hreached
    exact .inl ⟨.inl hreached, by rw [hreached, eq_of_getElem?_set hq]⟩
  rw [if_neg hlock16, if_neg (by simp [hok])] at hreached
  obtain ⟨hisreg, rfl, -⟩ | ⟨hisreg, rfl, hfits⟩ := resolve_ok hloc <;> cases hlock : i.lock <;>
    simp only [hisreg, hlock, Bool.false_eq_true, false_and, and_false, and_self, if_false, if_true, true_and,
      decide_eq_true_eq, true_or, false_or] at hreached hq ⊢
  · rw [runResolved_unlocked] at hq
    exact .inr ⟨.inl hreached, runPlain_reg_seq hseq hq⟩
  · rw [runResolved_locked_reg] at hq
    exact .inl ⟨.inr hreached, by rw [hreached, eq_of_getElem?_set hq]⟩
  · rw [runResolved_unlocked] at hq
    exact .inr ⟨.inl hreached, by rw [hreached, runPlain_mem_seq hfits hseq hq]⟩
  · rw [runResolved_locked_mem] at hq
    by_cases haligned : s.port.payload.locRef.toNat % i.width.bytes = 0
    · rw [if_neg (not_not.2 haligned)] at hq
      rw [if_pos haligned] at hreached
      split_ifs at hq hreached with hcas
      · exact .inr ⟨.inr hreached, by rw [hreached, runAtomic_seq hfits hseq hq]⟩
      · exact .inl ⟨.inl hreached, by rw [hreached, eq_of_getElem?_set hq]⟩
    · rw [if_pos haligned] at hq
      rw [if_neg haligned] at hreached
      exact .inr ⟨.inl hreached, by rw [hreached, runPlain_mem_seq hfits hseq hq]⟩

/-! A register command -/

/-- `ZERO_EXTEND` clears the upper half (R126). -/
theorem regAfter_w32_upper (x : Reg64) (off : Nat) (v : BitVec Width.w32.bits) :
    (regAfter .w32 x off v).extractLsb' 32 32 = 0 := by
  refine BitVec.eq_of_getLsbD_eq fun k hk => ?_
  rw [BitVec.getLsbD_extractLsb', regAfter, if_pos rfl, getLsbD_zeroUpperHalf _ (by omega)]
  simp

/-- A result narrower than a register's half leaves the upper half alone (R32). -/
theorem regAfter_narrow_upper {w : Width} (h32 : w ≠ .w32) (h64 : w ≠ .w64) (x : Reg64) {off : Nat} (hoff : off ≤ 1)
    (v : BitVec w.bits) : (regAfter w x off v).extractLsb' 32 32 = x.extractLsb' 32 32 := by
  have hbytes : w.bytes ≤ 2 := by
    cases w with
    | w8 | w16 => decide
    | w32 => exact absurd rfl h32
    | w64 => exact absurd rfl h64
  refine BitVec.eq_of_getLsbD_eq fun k hk => ?_
  rw [BitVec.getLsbD_extractLsb', BitVec.getLsbD_extractLsb', regAfter, if_neg h32, getLsbD_regInsert _ _ (by omega),
    if_neg (by omega)]

/-- The register that a command without lock leaves, through `ZERO_EXTEND` or not. -/
theorem register_upper_half {i : Instr} {s t : State} {p q : VP} {r : Fin 16} {off : Nat} (hisreg : i.isreg = true)
    (hlock : i.lock = false) (ready : Ready s p) (hoff : off ≤ 1) (hbyte : off = 1 → i.width = .w8)
    (hat : AtReg s r off) (hexec : exec i s = .next t) (hq : t.vps[s.port.vp]? = some q) :
    (i.width = .w32 → (q.regs.get r).extractLsb' 32 32 = 0) ∧
      (i.width ≠ .w32 → i.width ≠ .w64 →
        (q.regs.get r).extractLsb' 32 32 = (p.regs.get r).extractLsb' 32 32) := by
  rw [exec_eq_execute, hisreg, hlock, execute_atReg ready hat hoff hbyte] at hexec
  cases hexec
  rw [eq_of_getElem?_set hq]
  simp only [Vector.get_eq_getElem, Vector.getElem_set_self]
  refine ⟨fun h32 => ?_, fun h32 h64 => regAfter_narrow_upper h32 h64 _ hoff _⟩
  generalize specOf i.family i.width.bits _ _ = d
  revert d
  rw [h32]
  exact fun d => regAfter_w32_upper _ off d.1

/-! A step of a command in flight -/

/-- A step on the plain path leaves the sequencer in `DIRECT_RMW`, or where `DONE` leads when it ends the command. -/
theorem MicroOutcome.seq_directRmw {m m' : Memory} {p q : VP} {f : InFlight} (h : MicroOutcome m p f q m')
    (hseq : p.seq = .directRmw) : q.seq = if q.inflight.isSome = true then .directRmw else .idle := by
  obtain ⟨hidle, hnone⟩ | ⟨hsame, ph, hf, -⟩ := h.inflight
  · simp [hidle, hnone]
  · simp [hsame, hf, hseq]

/-- An atomic read stays in the CAS loop. -/
theorem MicroOutcome.of_casRead {m m' : Memory} {p q : VP} {f : InFlight} (h : MicroOutcome m p f q m')
    (hph : f.phase = .casRead) : q.seq = p.seq ∧ q.inflight.isSome = true := by
  cases h with
  | casRead => exact ⟨rfl, rfl⟩
  | readMore h | readLast h | writeMore h | writeLast h | swapOk h | swapFail h => cases hph.symm.trans h

/-- A swap ends the command when the cell holds the value observed, and else goes back to the atomic read. -/
theorem MicroOutcome.of_casSwap {m m' : Memory} {p q : VP} {f : InFlight} (h : MicroOutcome m p f q m')
    {old cand : BitVec 64} {lf : Flags} (hph : f.phase = .casSwap old cand lf) :
    ((memRead m f.addr f.width.bytes).setWidth 64 = old ∧ q.seq = .idle ∧ q.inflight = none) ∨
      ((memRead m f.addr f.width.bytes).setWidth 64 ≠ old ∧ q.seq = p.seq ∧
        q.inflight = some { f with phase := .casRead }) := by
  cases h with
  | swapOk h heq =>
    cases hph.symm.trans h
    exact .inl ⟨heq, rfl, rfl⟩
  | swapFail h hne =>
    cases hph.symm.trans h
    exact .inr ⟨hne, rfl, rfl⟩
  | readMore h | readLast h | writeMore h | writeLast h | casRead h => cases hph.symm.trans h

/-- Settles O46: for each of the three kinds of step, the table's rows and the sequencer after it, case by case. -/
theorem sequencerFollowsTheTransitionTable : Obligations.SequencerFollowsTheTransitionTable := by
  refine ⟨fun i s t p q casOk ready hexec hq => ?_,
    fun i s t p q r off aligned hostCas casOk hisreg hlock ready hoff hbyte hat hexec hq => ?_,
    fun s t v p q f hs hp hf hstep hq => ?_⟩
  · intro facts reached
    obtain ⟨hreached, hqseq⟩ | ⟨hreached, hqseq⟩ := exec_seq ready hexec hq casOk
    · refine ⟨hreached.imp_right .inl, fun _ => ⟨hqseq, next_of_stuck facts casOk hreached⟩, fun hpath => ?_⟩
      obtain h | h := hreached <;> obtain h' | h' := hpath <;> cases h.symm.trans h'
    · refine ⟨.inr (.inr hreached), fun hstuck => ?_, fun _ => hqseq⟩
      obtain h | h := hreached <;> obtain h' | h' := hstuck <;> cases h.symm.trans h'
  · intro facts after
    obtain ⟨hextended, hnarrow⟩ := register_upper_half hisreg hlock ready hoff hbyte hat hexec hq
    by_cases h32 : i.width = .w32
    · exact .inl ⟨by simp [after, facts, CmdFacts.next, h32], by simp [after, facts, CmdFacts.next, h32], hextended h32⟩
    · exact .inr ⟨by simp [after, facts, CmdFacts.next, h32], hnarrow h32⟩
  · intro facts
    obtain ⟨-, hseq, -, -⟩ := coherent_inflight hs hp hf
    obtain ⟨q', hq', hout, -⟩ := stepVp_outcome hs hp hf hstep
    cases Option.some.inj (hq'.symm.trans hq)
    refine ⟨fun hdirect casOk => ⟨by simp [facts, CmdFacts.next], hout.seq_directRmw hdirect⟩, fun hph => ?_,
      fun old cand lf hph => ?_⟩
    · obtain ⟨hsame, hsome⟩ := hout.of_casRead hph
      exact ⟨by rw [hsame, hseq, hph]; rfl, hsome⟩
    · intro casOk after
      obtain ⟨heq, hidle, hnone⟩ | ⟨hne, hsame, hagain⟩ := hout.of_casSwap hph
      · have hafter : after = .done := if_pos (decide_eq_true heq)
        exact .inl ⟨hafter, by rw [hafter, hidle]; rfl, hnone⟩
      · have hafter : after = .atomicCasLoop := if_neg (by simpa [casOk] using hne)
        exact .inr ⟨hafter, by rw [hsame, hseq, hph, hafter]; rfl, hagain⟩

end Sys2Proof.Machine
end

section
/-! Privacy (R20, R21, R30): two runs that differ in the registers and flags of other virtual processors only. -/

namespace Sys2Proof.Machine

open Sys2Proof.Claims

/-- Two outcomes of a step of virtual processor `v` that agree: next states that differ only in registers and flags of
the others, or one stop. -/
def SameOutcome (v : Nat) (o o' : Host.Outcome State Fault Refusal) : Prop :=
  (∃ t t', o = .next t ∧ o' = .next t' ∧ SameFor v t t') ∨ (∃ a, o = .fault a ∧ o' = .fault a) ∨
    ∃ a, o = .refused a ∧ o' = .refused a

section SameFor

variable {v : Nat} {s s' : State} (h : SameFor v s s')
include h

/-- The same record of `v` and the same shared state in both runs keep them alike. -/
theorem sameFor_of_set {t t' : State} {q : VP} (hvps : t.vps = s.vps.set v q) (hvps' : t'.vps = s'.vps.set v q)
    (hmem : t'.mem = t.mem) (habort : t'.abort = t.abort) (hhost : t'.host = t.host) (hport : t'.port = t.port)
    (hscript : t'.script = t.script) (htick : t'.tick = t.tick) : SameFor v t t' := by
  obtain ⟨-, -, -, -, -, -, hlen, -, hothers⟩ := h
  refine ⟨hmem, habort, hhost, hport, hscript, htick, ?_, ?_, fun u p r hp hr => ?_⟩
  · rw [hvps, hvps', List.length_set, List.length_set, hlen]
  · rw [hvps, hvps', List.getElem?_set, List.getElem?_set, hlen]
    split_ifs with hne
    · rfl
    · rfl
    · exact absurd rfl hne
  · rw [hvps, List.getElem?_set] at hp
    rw [hvps', List.getElem?_set] at hr
    split_ifs at hp hr with hu
    · cases hp
      cases hr
      exact ⟨rfl, rfl, rfl, rfl⟩
    · exact hothers u p r hp hr

theorem sameFor_setVp (q : VP) : SameFor v (s.setVp v q) (s'.setVp v q) := by
  have ⟨hmem, habort, hhost, hport, hscript, htick, _⟩ := h
  exact sameFor_of_set h rfl rfl hmem habort hhost hport hscript htick

theorem sameFor_commit (q : VP) (m : Memory) : SameFor v (s.commit v q m) (s'.commit v q m) := by
  have ⟨_, habort, hhost, hport, hscript, htick, _⟩ := h
  exact sameFor_of_set h rfl rfl rfl habort hhost hport hscript htick

theorem sameFor_raiseIllegal (p : VP) (c : IllegalCode) :
    SameFor v (s.raiseIllegal v p c) (s'.raiseIllegal v p c) :=
  sameFor_setVp h _

theorem sameFor_raiseViolation (p : VP) (c : ViolationCode) :
    SameFor v (s.raiseViolation v p c) (s'.raiseViolation v p c) := by
  have ⟨hmem, _, hhost, hport, hscript, htick, _⟩ := h
  exact sameFor_of_set h rfl rfl hmem rfl hhost hport hscript htick

theorem sameFor_present (p : VP) (c : Command) (rest : List Command) :
    SameFor v (s.present v p c rest) (s'.present v p c rest) := by
  have ⟨hmem, habort, hhost, _, hscript, htick, _⟩ := h
  exact sameFor_of_set h rfl rfl hmem habort hhost rfl hscript htick

/-- A free choice draws the same number in both runs. -/
theorem sameFor_choose (k : Nat) : (s'.choose k).1 = (s.choose k).1 ∧ SameFor v (s.choose k).2 (s'.choose k).2 := by
  have ⟨hmem, habort, hhost, hport, hscript, htick, hvps⟩ := h
  unfold State.choose State.draw
  rw [hscript, htick]
  split
  · exact ⟨rfl, h⟩
  · cases s.script with
    | nil => exact ⟨rfl, hmem, habort, hhost, hport, rfl, rfl, hvps⟩
    | cons c rest => exact ⟨rfl, hmem, habort, hhost, hport, rfl, rfl, hvps⟩

/-- Whether the others can step shows in neither their registers nor their flags. -/
theorem sameFor_quiet_mono (hquiet : s.quiet v = true) : s'.quiet v = true := by
  obtain ⟨-, -, -, -, -, -, hlen, -, hothers⟩ := h
  refine quiet_iff.2 fun u q hq hcan => ?_
  have hlt : u < s.vps.length := hlen ▸ (List.getElem?_eq_some_iff.1 hq).1
  obtain ⟨hfault, -, hinflight, hcmds⟩ := hothers u _ q (List.getElem?_eq_getElem hlt) hq
  refine quiet_iff.1 hquiet u _ (List.getElem?_eq_getElem hlt) ?_
  rw [VP.canStep_iff] at hcan ⊢
  rwa [hfault, hinflight, hcmds] at hcan

theorem sameFor_symm : SameFor v s' s := by
  obtain ⟨hmem, habort, hhost, hport, hscript, htick, hlen, hv, hothers⟩ := h
  refine ⟨hmem.symm, habort.symm, hhost.symm, hport.symm, hscript.symm, htick.symm, hlen.symm, hv.symm,
    fun u p q hp hq => ?_⟩
  obtain ⟨hfault, hseq, hinflight, hcmds⟩ := hothers u q p hq hp
  exact ⟨hfault.symm, hseq.symm, hinflight.symm, hcmds.symm⟩

theorem sameFor_quiet : s'.quiet v = s.quiet v :=
  Bool.eq_iff_iff.2 ⟨sameFor_quiet_mono (sameFor_symm h), sameFor_quiet_mono h⟩

/-- A step of a command in flight looks at its own record, memory and the free choices. -/
theorem sameFor_microStep (p : VP) (f : InFlight) : SameFor v (s.microStep v p f) (s'.microStep v p f) := by
  have ⟨hmem, _⟩ := h
  unfold State.microStep
  cases f.phase with
  | reading todo got =>
    obtain ⟨hchoice, hafter⟩ := sameFor_choose h todo.length
    simp only [State.readByteStep, hmem, hchoice]
    split
    · exact sameFor_setVp hafter _
    · exact sameFor_setVp hafter _
  | writing todo =>
    obtain ⟨hchoice, hafter⟩ := sameFor_choose h todo.length
    simp only [State.writeByteStep, hmem, hchoice]
    split
    · exact sameFor_commit hafter _ _
    · exact sameFor_commit hafter _ _
  | casRead =>
    simp only [State.casReadStep, hmem]
    exact sameFor_setVp h _
  | casSwap old cand lf =>
    simp only [State.casSwapStep, hmem]
    split
    · exact sameFor_commit h _ _
    · exact sameFor_setVp h _

theorem sameFor_runPlain (p : VP) (f : Family) (w : Width) (lock : Bool) (loc : Location) :
    SameFor v (s.runPlain v p f w lock loc) (s'.runPlain v p f w lock loc) := by
  have ⟨hmem, _⟩ := h
  cases loc with
  | regLoc r off =>
    simp only [State.runPlain, hmem]
    exact sameFor_commit h _ _
  | memLoc a =>
    simp only [State.runPlain, hmem, sameFor_quiet h]
    split
    · exact sameFor_commit h _ _
    · exact sameFor_microStep h _ _

theorem sameFor_runAtomic (p : VP) (f : Family) (w : Width) (lock : Bool) (a : Addr) :
    SameFor v (s.runAtomic v p f w lock a) (s'.runAtomic v p f w lock a) := by
  have ⟨hmem, _⟩ := h
  simp only [State.runAtomic, hmem, sameFor_quiet h]
  split
  · exact sameFor_commit h _ _
  · exact sameFor_microStep h _ _

theorem sameFor_runResolved (p : VP) (f : Family) (w : Width) (lock isreg : Bool) (loc : Location) :
    SameFor v (s.runResolved v p f w lock isreg loc) (s'.runResolved v p f w lock isreg loc) := by
  have ⟨_, _, hhost, _⟩ := h
  simp only [State.runResolved, hhost]
  split
  · exact sameFor_raiseViolation h _ _
  · split
    · exact sameFor_raiseIllegal h _ _
    · exact sameFor_runAtomic h ..
    · exact sameFor_runPlain h ..

/-- A meaning for `v` goes through the same checks in both runs and comes to the same path or stop. -/
theorem sameOutcome_execute (hport : s.port.vp = v) (f : Family) (w : Width) (lock isreg : Bool) :
    SameOutcome v (execute f w lock isreg s) (execute f w lock isreg s') := by
  subst hport
  have ⟨_, habort, _, hport, _, _, _, hv, _⟩ := h
  cases hp : s.vps[s.port.vp]? with
  | none =>
    rw [hp] at hv
    exact .inr (.inr ⟨.noSuchVp, by simp [execute, hp], by simp [execute, hport, hv]⟩)
  | some p =>
    have hp' : s'.vps[s'.port.vp]? = some p := by rw [hport, hv, hp]
    by_cases ha : s.abort = true
    · exact .inr (.inl ⟨_, execute_of_abort hp _ _ _ _ ha, execute_of_abort hp' _ _ _ _ (habort.trans ha)⟩)
    have ha : s.abort = false := by simpa using ha
    by_cases hfault : p.fault = .none
    case neg =>
      exact .inr (.inl ⟨_, execute_of_fault hp _ _ _ _ ha hfault,
        execute_of_fault hp' _ _ _ _ (habort.trans ha) hfault⟩)
    by_cases hseq : p.seq = .idle
    case neg =>
      exact .inr (.inr ⟨_, execute_of_busy hp _ _ _ _ ha hfault hseq,
        execute_of_busy hp' _ _ _ _ (habort.trans ha) hfault hseq⟩)
    have ready : Ready s p := ⟨hp, ha, hfault, hseq⟩
    have ready' : Ready s' p := ⟨hp', habort.trans ha, hfault, hseq⟩
    by_cases hlock : w = .w16 ∧ lock = true
    · obtain ⟨rfl, rfl⟩ := hlock
      refine .inl ⟨_, _, execute_lock_w16 ready f isreg, execute_lock_w16 ready' f isreg, ?_⟩
      rw [hport]
      exact sameFor_raiseViolation h _ _
    cases hok : s.port.payload.resOk with
    | false =>
      refine .inl ⟨_, _, execute_of_not_resOk ready f isreg hlock hok,
        execute_of_not_resOk ready' f isreg hlock (by rw [hport, hok]), ?_⟩
      rw [hport]
      exact sameFor_raiseIllegal h _ _
    | true =>
      cases hloc : resolve w isreg s.port.payload.locRef with
      | error why =>
        exact .inr (.inr ⟨why, execute_of_resolve_error ready f hlock hok hloc,
          execute_of_resolve_error ready' f hlock (by rw [hport, hok]) (by rw [hport, hloc])⟩)
      | ok loc =>
        refine .inl ⟨_, _, execute_of_resolve ready f hlock hok hloc,
          execute_of_resolve ready' f hlock (by rw [hport, hok]) (by rw [hport, hloc]), ?_⟩
        rw [hport]
        exact sameFor_runResolved h ..

theorem sameOutcome_stepVp : SameOutcome v (stepVp v s) (stepVp v s') := by
  have ⟨_, _, _, _, _, _, _, hv, _⟩ := h
  cases hp : s.vps[v]? with
  | none =>
    rw [hp] at hv
    exact .inr (.inr ⟨.noSuchVp, by simp [stepVp, hp], by simp [stepVp, hv]⟩)
  | some p =>
    have hp' : s'.vps[v]? = some p := hv.trans hp
    cases hf : p.inflight with
    | some f => exact .inl ⟨_, _, stepVp_inflight hp hf, stepVp_inflight hp' hf, sameFor_microStep h p f⟩
    | none =>
      cases hcmds : p.cmds with
      | nil => exact .inr (.inl ⟨.runEnded, by simp [stepVp, hp, hf, hcmds], by simp [stepVp, hp', hf, hcmds]⟩)
      | cons c rest =>
        have hpresent := sameFor_present h p c rest
        cases hdecode : decode c.word with
        | error code =>
          exact .inl ⟨_, _, stepVp_of_decode_error hp hf hcmds hdecode, stepVp_of_decode_error hp' hf hcmds hdecode,
            sameFor_raiseIllegal hpresent _ _⟩
        | ok i =>
          rw [stepVp_of_decode_ok hp hf hcmds hdecode, stepVp_of_decode_ok hp' hf hcmds hdecode, exec_eq_execute,
            exec_eq_execute]
          exact sameOutcome_execute hpresent rfl ..

end SameFor

/-- Settles O57: the two steps have the same outcome. -/
theorem registersAndFlagsArePrivate : Obligations.RegistersAndFlagsArePrivate := by
  intro v s s' h
  obtain ⟨t, t', hstep, hstep', hsame⟩ | ⟨a, hstep, hstep'⟩ | ⟨a, hstep, hstep'⟩ := sameOutcome_stepVp h
  · simpa only [hstep, hstep'] using hsame
  · simp only [hstep, hstep']
  · simp only [hstep, hstep']

end Sys2Proof.Machine
end

section
/-! Locked increments of one aligned cell (R63): each step either takes one increment into effect, on the value that the
cell holds, or leaves the cell and the number of increments outstanding. -/

namespace Sys2Proof.Machine

open Sys2Proof.Claims

/-! The premise on one virtual processor -/

/-- The command of R63: a `LOCK INC` of width `w` on the cell `a`. -/
def lockedInc (w : Width) (a : Addr) : Command := ⟨encode (instrOf .INC w true false), ⟨true, a⟩⟩

/-- The virtual processor has no fault, and every command of its is a `LOCK INC` of width `w` on the cell `a`. -/
def VP.IncrementsOnly (w : Width) (a : Addr) (p : VP) : Prop :=
  p.fault = .none ∧ (∀ c ∈ p.cmds, c = lockedInc w a) ∧
    ∀ f, p.inflight = some f → f.family = .INC ∧ f.width = w ∧ f.addr = a ∧ f.lock = true

theorem onlyLockedIncrements_iff {w : Width} {a : Addr} {s : State} :
    OnlyLockedIncrements w a s ↔ s.coherent = true ∧ s.abort = false ∧ w ≠ .w16 ∧ a.toNat % w.bytes = 0 ∧
      s.host.hasCas w = true ∧ ∀ p ∈ s.vps, p.IncrementsOnly w a :=
  Iff.rfl

/-- The decoder reads the command as what it is. -/
theorem decode_lockedInc (w : Width) (a : Addr) : decode (lockedInc w a).word = .ok (instrOf .INC w true false) :=
  decodeOfEncodeIsTheInstruction _

/-- An aligned operand does not run past the top of memory. -/
theorem fits_of_aligned {w : Width} {a : Addr} (h : a.toNat % w.bytes = 0) : a.toNat + w.bytes ≤ 2 ^ 64 := by
  have hlt := a.isLt
  cases w <;> simp only [Width.bytes] at h ⊢ <;> omega

theorem specOf_INC_fst {W : Nat} (x : BitVec W) (fin : Flags) : (specOf .INC W x fin).1 = x + 1 :=
  (add_one_eq_ofNat x).symm

/-! What a step does to the cell and to the increments outstanding -/

/-- One step of a virtual processor, from memory `m` with `k` of its increments outstanding: the cell is as it was and
they are as many, or one took effect. -/
def IncrementStep (w : Width) (a : Addr) (k : Nat) (m : Memory) (q : VP) (m' : Memory) : Prop :=
  q.IncrementsOnly w a ∧
    ((m' = m ∧ pending q = k) ∨ (memRead m' a w.bytes = memRead m a w.bytes + 1 ∧ pending q + 1 = k))

/-- A step of an increment in flight: the atomic read and a failed swap change nothing, a swap that succeeds is one
increment of the cell as it is. -/
theorem MicroOutcome.incrementStep {m m' : Memory} {p q : VP} {f : InFlight} (h : MicroOutcome m p f q m')
    (hm : m.wf = true) {w : Width} {a : Addr} (hp : p.IncrementsOnly w a) (hf : p.inflight = some f)
    (hfits : a.toNat + w.bytes ≤ 2 ^ 64) (hpath : f.phase.path = .atomic) :
    IncrementStep w a (pending p) m q m' := by
  obtain ⟨hfault, hcmds, hinflight⟩ := hp
  obtain ⟨hfamily, rfl, rfl, hlock⟩ := hinflight f hf
  cases h with
  | readMore hph | readLast hph | writeMore hph | writeLast hph =>
    rw [hph] at hpath
    cases hpath
  | casRead hph hd =>
    refine ⟨⟨hfault, hcmds, ?_⟩, .inl ⟨rfl, by simp [pending, hf]⟩⟩
    rintro f' ⟨⟩
    exact ⟨hfamily, rfl, rfl, hlock⟩
  | swapFail hph =>
    refine ⟨⟨hfault, hcmds, ?_⟩, .inl ⟨rfl, by simp [pending, hf]⟩⟩
    rintro f' ⟨⟩
    exact ⟨hfamily, rfl, rfl, hlock⟩
  | swapOk hph heq hd =>
    refine ⟨⟨hfault, hcmds, nofun⟩, .inr ⟨?_, by simp [pending, hf]⟩⟩
    rw [memRead_memWrite hm _ hfits, hd, hfamily, specOf_INC_fst]

/-- A `LOCK INC` handed over: one whole increment, or its atomic read, with the increment in flight. -/
theorem exec_lockedInc {s t : State} {p : VP} {w : Width} {a : Addr} (ready : Ready s p) (hnone : p.inflight = none)
    (hm : s.mem.wf = true) (hp : p.IncrementsOnly w a) (hat : AtMem s a) (hwidth : w ≠ .w16)
    (haligned : a.toNat % w.bytes = 0) (hcas : s.host.hasCas w = true)
    (hexec : exec (instrOf .INC w true false) s = .next t) :
    ∃ q, t.vps = s.vps.set s.port.vp q ∧ t.abort = s.abort ∧ IncrementStep w a (pending p + 1) s.mem q t.mem := by
  obtain ⟨hfault, hcmds, -⟩ := hp
  have hfits := fits_of_aligned haligned
  rw [exec_eq_execute, instrOf_family, instrOf_width, instrOf_lock, instrOf_isreg,
    execute_atMem ready hat hfits (fun h => hwidth h.1), runResolved_locked_mem, if_neg (not_not.2 haligned),
    if_pos hcas] at hexec
  cases hexec
  cases hquiet : s.quiet s.port.vp with
  | true =>
    rw [runAtomic_of_quiet hquiet]
    refine ⟨_, rfl, rfl, ⟨hfault, hcmds, fun f hf => nomatch hnone.symm.trans hf⟩, .inr ⟨?_, rfl⟩⟩
    rw [State.wholeMem, State.commit_mem, memRead_memWrite hm _ hfits, specOf_INC_fst]
  | false =>
    rw [runAtomic_of_contended hquiet, microStep_casRead rfl]
    refine ⟨_, rfl, rfl, ⟨hfault, hcmds, ?_⟩, .inl ⟨rfl, ?_⟩⟩
    · rintro f ⟨⟩
      exact ⟨rfl, rfl, rfl, rfl⟩
    · simp [pending, hnone, VP.begin]

/-- A command in flight of an increments-only virtual processor is on the atomic path. -/
theorem path_of_lockedInc {f : InFlight} {h : HostCaps} (hpath : f.onPath h = true) (hlock : f.lock = true)
    (haligned : f.addr.toNat % f.width.bytes = 0) (hcas : h.hasCas f.width = true) : f.phase.path = .atomic := by
  obtain ⟨hchosen, -⟩ := InFlight.onPath_iff.1 hpath
  rw [← hchosen]
  simp [choosePath, hlock, aligned, haligned, hcas]

/-- What a step of the machine does under the premise. -/
theorem step_incrementStep {w : Width} {a : Addr} {s t : State} (h : OnlyLockedIncrements w a s)
    (hstep : step s = .next t) :
    ∃ v p q, s.vps[v]? = some p ∧ t.vps = s.vps.set v q ∧ t.abort = s.abort ∧
      IncrementStep w a (pending p) s.mem q t.mem := by
  obtain ⟨hs, habort, hwidth, haligned, hcas, hall⟩ := onlyLockedIncrements_iff.1 h
  obtain ⟨-, v, s', hnext, p, hp', hcases⟩ := step_cases hstep
  have hsame := nextVp_sameButChoices hnext
  have hs' := coherent_of_sameButChoices hsame hs
  obtain ⟨hp, hfault⟩ := nextVp_fault hnext hp'
  obtain ⟨hvps, hmem, habort', hhost, -⟩ := hsame
  obtain ⟨-, hm, -, -⟩ := State.coherent_iff.1 hs'
  have hinc := hall p (List.mem_of_getElem? hp)
  have ⟨_, hcmds, hinflight⟩ := hinc
  rw [← hvps, ← habort', ← hmem]
  rw [← hhost] at hcas
  refine ⟨v, p, ?_⟩
  have hcommand {c : Command} {rest : List Command} (hc : p.cmds = c :: rest) : c = lockedInc w a :=
    hcmds c (by simp [hc])
  obtain ⟨f, hf, rfl⟩ | ⟨c, rest, code, -, hc, hdecode, -⟩ | ⟨c, rest, i, hnone, hc, hdecode, hexec⟩ := hcases
  · obtain ⟨-, -, hcoh, hpath⟩ := coherent_inflight hs' hp' hf
    obtain ⟨k, q, m, hmicro, hout⟩ := microStep_outcome s' v hcoh
    obtain ⟨-, rfl, rfl, hlock⟩ := hinflight f hf
    rw [hmicro]
    refine ⟨q, hp', by simp, by simp, ?_⟩
    exact hout.incrementStep hm hinc hf (fits_of_aligned haligned) (path_of_lockedInc hpath hlock haligned hcas)
  · rw [hcommand hc, decode_lockedInc] at hdecode
    cases hdecode
  · rw [hcommand hc, decode_lockedInc] at hdecode
    cases hdecode
    obtain rfl := hcommand hc
    obtain ⟨-, -, hcohAll, -⟩ := State.coherent_iff.1 hs'
    have hseq := VP.coherent_idle (hcohAll p (List.mem_of_getElem? hp')) hfault hnone
    have ready := ready_present hp' (habort'.trans habort) hfault hseq (lockedInc w a) rest
    have hrest : VP.IncrementsOnly w a { p with cmds := rest } :=
      ⟨hfault, fun c hc' => hcmds c (by simp [hc, hc']), hinflight⟩
    obtain ⟨q, hq, hqabort, hstepq⟩ := exec_lockedInc ready hnone hm hrest rfl hwidth haligned hcas hexec
    have hpending : pending { p with cmds := rest } + 1 = pending p := by simp [pending, hc, hnone]
    rw [hpending] at hstepq
    exact ⟨q, hp', hq.trans (List.set_set ..), hqabort, hstepq⟩

/-! The sum over the virtual processors -/

/-- Replacing one entry of a list of numbers replaces its part of their sum. -/
theorem sum_map_set {l : List VP} {v : Nat} {p : VP} (hp : l[v]? = some p) (q : VP) (g : VP → Nat) :
    ((l.set v q).map g).sum + g p = (l.map g).sum + g q := by
  induction l generalizing v with
  | nil => cases hp
  | cons x l ih =>
    cases v with
    | zero =>
      cases hp
      simp only [List.set_cons_zero, List.map_cons, List.sum_cons]
      omega
    | succ v =>
      have := ih (v := v) (by simpa using hp)
      simp only [List.set_cons_succ, List.map_cons, List.sum_cons]
      omega

/-- Settles O58: a step keeps coherence (O52) and the premise on every record, and either changes neither the cell nor
the number of increments outstanding, or adds one to the first and takes one from the second. -/
theorem lockedIncrementsLoseNoUpdate : Obligations.LockedIncrementsLoseNoUpdate := by
  intro w a s t h hstep
  obtain ⟨hs, habort, hwidth, haligned, hcas, hall⟩ := onlyLockedIncrements_iff.1 h
  obtain ⟨v, p, q, hp, hvps, htabort, hq, hcell⟩ := step_incrementStep h hstep
  obtain ⟨hhost, -⟩ := faultRecordsAndConfigurationStay s t hstep
  have hsum : allPending t + pending p = allPending s + pending q := by
    rw [allPending, hvps]
    exact sum_map_set hp q pending
  refine ⟨onlyLockedIncrements_iff.2 ⟨stepKeepsCoherence s t hs hstep, htabort.trans habort, hwidth, haligned,
    by rw [hhost, hcas], fun r hr => ?_⟩, ?_⟩
  · rw [hvps] at hr
    obtain hr | rfl := List.mem_or_eq_of_mem_set hr
    · exact hall r hr
    · exact hq
  · obtain ⟨hmem, hpending⟩ | ⟨hmem, hpending⟩ := hcell
    · rw [hmem, show allPending t = allPending s by omega]
    · rw [hmem, show allPending s = allPending t + 1 by omega, BitVec.ofNat_add, BitVec.add_assoc,
        BitVec.add_comm (BitVec.ofNat _ (allPending t))]
      rfl

end Sys2Proof.Machine
end

section
/-! Two runs of two virtual processors that increment one misaligned cell under lock (R63, R233): the misaligned
fallback loses an update, and reads a torn value. -/

namespace Sys2Proof.Machine

open Sys2Proof.Claims

/-- A virtual processor with one `LOCK INC32` of the misaligned cell 0x1001 to execute. -/
def litmusVp : VP := VP.launch (Vector.replicate 16 0) Flags.clear [⟨0x0290#16, ⟨true, 0x1001#64⟩⟩]

/-- Two such virtual processors, with the choices of the schedule and of the bytes written out. -/
def litmusStart (m : Memory) (script : List Nat) : State :=
  ⟨[litmusVp, litmusVp], m, false, HostCaps.all, ⟨0, ⟨false, 0⟩⟩, script, 0⟩

/-- The run ended well, with the cell at 0x1001 at the value `x`. -/
def EndsWith (x : BitVec 32) (o : Host.Outcome State Fault Refusal) : Bool :=
  match o with
  | .next t => t.endedWell && memRead t.mem 0x1001#64 4 == x
  | _ => false

theorem exists_of_endsWith {x : BitVec 32} {o : Host.Outcome State Fault Refusal} (h : EndsWith x o = true) :
    ∃ t, o = .next t ∧ t.endedWell = true ∧ memRead t.mem 0x1001#64 4 = x := by
  cases o with
  | next t => exact ⟨t, rfl, by simpa [EndsWith] using h⟩
  | fault a => cases h
  | refused a => cases h

/-- The choices for the four byte reads of virtual processor `v`, or its four byte writes, one after the other, while
the other one can step too: of the virtual processor each time, and of a byte but for the last, where one is left. -/
def fourAccesses (v : Nat) : List Nat := [v, 0, v, 0, v, 0, v]

/-- The same after the other virtual processor has ended: only bytes are chosen. -/
def fourAccessesAlone : List Nat := [0, 0, 0]

/-- Both read the cell before either writes it, so that one increment is lost. -/
theorem lostUpdate_run :
    EndsWith 1#32 (Host.Core.run Sys2Proof.core 16
      (litmusStart [] (fourAccesses 0 ++ fourAccesses 1 ++ fourAccesses 0 ++ fourAccessesAlone))) = true := by
  decide

/-- Virtual processor 1 reads byte 0, virtual processor 0 then runs from its first read to its last write, and virtual
processor 1 reads the other three bytes and writes: `0xFF` and `0x100` are read as `0x1FF`. -/
theorem tornRead_run :
    EndsWith 0x200#32 (Host.Core.run Sys2Proof.core 16
      (litmusStart [(0x1001, 0xFF#8)] ([1, 0] ++ fourAccesses 0 ++ fourAccesses 0 ++ [0, 0] ++ fourAccessesAlone))) =
      true := by
  decide

/-- Settles O59: the run in which both read before either writes. -/
theorem misalignedLockedIncrementsCanLoseAnUpdate : Obligations.MisalignedLockedIncrementsCanLoseAnUpdate := by
  obtain ⟨t, hrun, hend, hcell⟩ := exists_of_endsWith lostUpdate_run
  exact ⟨_, t, by decide, rfl, rfl, hrun, hend, hcell⟩

/-- Settles O60: the run in which one command falls between the byte reads of the other. -/
theorem misalignedLockedIncrementsCanReadATornValue : Obligations.MisalignedLockedIncrementsCanReadATornValue := by
  obtain ⟨t, hrun, hend, hcell⟩ := exists_of_endsWith tornRead_run
  exact ⟨_, t, by decide, rfl, rfl, hrun, hend, hcell⟩

end Sys2Proof.Machine
end
